-- ==== Sys2Proof/Word.lean ====
section
/-! DEFINITION. The two word types of the block: a byte, and the 16-bit word of SETTLE_MS, TMR and the read port. -/

namespace Sys2Proof

/-- A byte: an unsigned value 0 to 255 (00_scope.md, notation). -/
abbrev Byte := BitVec 8

/-- A 16-bit word: SETTLE_MS and TMR (R28, R32), and the value a host read returns. -/
abbrev Word := BitVec 16

end Sys2Proof
end

