-- ==== Sys2Proof/Config.lean ====
section
/-! DEFINITION. The named parameters of R5, each with the value this hardware takes, and the free values: opaque
constants without a body, for what the spec leaves unspecified (R38, R39, R57). -/

namespace Sys2Proof

/-- First byte of every frame (R5, R81). -/
abbrev Config.magic : Byte := 0x81

/-- Bytes counted by the length byte besides the data: type and checksum (R5, R82). -/
abbrev Config.lenOverhead : Nat := 2

/-- Bytes DECODE reads first: magic and length (R5, R133). -/
abbrev Config.hdrBytes : Nat := 2

/-- Bytes of a frame that are not data (R5, R80). -/
abbrev Config.frameOverhead : Nat := 4

/-- Greatest number of data bytes in a payload (R5, R20). -/
abbrev Config.maxData : Nat := 252

/-- Bytes in the frame buffer (R5, R30). -/
abbrev Config.fbSize : Nat := 256

/-- Least legal length byte (R5, R82). -/
abbrev Config.minLen : Nat := 2

/-- Greatest legal length byte (R5, R82). -/
abbrev Config.maxLen : Nat := 254

/-- Reset value of SETTLE_MS, in milliseconds (R5, R28). -/
abbrev Config.settleDefault : Word := 300

/-- The one type tag the source names; used only by the row FRAME.SET (R5, R180). -/
abbrev Config.typeSet : Byte := 0x04

/-- RXQ_DEPTH: the capacity of the receive queue, `none` for unbounded, which R64 and D22 say a model takes when
the parameter is not given. Log entry 14. -/
abbrev Config.rxqDepth : Option Nat := none

/-- FREE VALUE: the byte an unspecified place `a` of FB holds, in generation `g` of its unspecified contents
(R38, U8). Log entry 6. -/
opaque Config.freeFb (g a : Nat) : Byte

/-- FREE VALUE: TYPE after the failed DECODE that made draw `n` (R38). Log entry 7. -/
opaque Config.freeType (n : Nat) : Byte

/-- FREE VALUE: DLEN after the failed DECODE that made draw `n` (R38). Log entry 7. -/
opaque Config.freeDlen (n : Nat) : Byte

/-- FREE VALUE: SUM after the operation that made draw `n` (R38). Log entry 7. -/
opaque Config.freeSum (n : Nat) : Byte

/-- FREE VALUE: TMR after the failed DECODE that made draw `n` (R38). Log entry 7. -/
opaque Config.freeTmr (n : Nat) : Word

/-- FREE VALUE: what a read of RESULT while BUSY returns (R39), at draw `n`. Log entry 8. -/
opaque Config.freeResultRead (n : Nat) : BitVec 4

/-- FREE VALUE: what a read of TYPE, DLEN or DBUF while BUSY returns (R39), at draw `n`. Log entry 8. -/
opaque Config.freeByteRead (n : Nat) : Byte

/-- FREE VALUE: the transmit environment's choice at draw `n`, cut down to `0 .. |s|` where it is used (R57, U5).
Log entry 22. -/
opaque Config.freeAccept (n : Nat) : Nat

end Sys2Proof
end

