-- ==== Sys2Proof/Machine/Frame.lean ====
section
/-! DEFINITION. Level 1 of the spec (R7): the result kinds and the pure functions over byte sequences, sum8, FrameBytes
and ParseFrame (R87 to R89), with the one payload shape of the command layer (R180). -/

namespace Sys2Proof.Machine

/-- The six results an operation ends with (R190). -/
inductive Kind where
  | ok | badMagic | shortRead | checksumMismatch | ioError | badLength
  deriving DecidableEq, Repr

/-- The numeric code of a result, as RESULT holds it (R190, R25). -/
def Kind.code (k : Kind) : BitVec 4 :=
  match k with
  | .ok => 0
  | .badMagic => 1
  | .shortRead => 2
  | .checksumMismatch => 3
  | .ioError => 4
  | .badLength => 5

/-- The outcome of reading a frame: the payload, or a failure kind (R89, R130). -/
inductive Parsed where
  | ok (t : Byte) (d : List Byte)
  | fail (k : Kind)
  deriving DecidableEq, Repr

/-- The result kind an outcome reports. -/
def Parsed.kind (p : Parsed) : Kind :=
  match p with
  | .ok _ _ => .ok
  | .fail k => k

/-- `sum8`: the sum of the bytes modulo 256, carries dropped (R87). -/
def sum8 (s : List Byte) : Byte :=
  s.foldl (· + ·) 0

/-- The length byte of a frame with `n` data bytes (R82). -/
def lenByte (n : Nat) : Byte :=
  BitVec.ofNat 8 (n + Config.lenOverhead)

/-- A length byte value that DECODE accepts: `MIN_LEN` to `MAX_LEN` (R82, R90). -/
def lenLegal (l : Nat) : Bool :=
  Config.minLen ≤ l && l ≤ Config.maxLen

/-- `FrameBytes(t, d)` (R88); the spec defines it for at most 252 data bytes, and every caller checks that. -/
def frameBytes (t : Byte) (d : List Byte) : List Byte :=
  [Config.magic, lenByte d.length, t, sum8 d] ++ d

/-- `ParseFrame(s)`: the outcome and the number of bytes used, the tests in the order of R89. -/
def parseFrame (s : List Byte) : Parsed × Nat :=
  if s.length < Config.hdrBytes then (.fail .shortRead, s.length)
  else if s.getD 0 0 ≠ Config.magic then (.fail .badMagic, Config.hdrBytes)
  else
    let l := (s.getD 1 0).toNat
    if !lenLegal l then (.fail .badLength, Config.hdrBytes)
    else if s.length < Config.hdrBytes + l then (.fail .shortRead, s.length)
    else
      let d := (s.drop Config.frameOverhead).take (l - Config.lenOverhead)
      if sum8 d ≠ s.getD 3 0 then (.fail .checksumMismatch, Config.hdrBytes + l)
      else (.ok (s.getD 2 0) d, Config.hdrBytes + l)

/-- The seven data bytes of the command layer's set payload (R180). -/
def setData (uu ll ff vv : Byte) : List Byte :=
  [0x02, 0x01, 0x83, uu, ll, ff, vv]

end Sys2Proof.Machine
end

