-- ==== Sys2Proof/Syntax.lean ====
section
/-! DEFINITION. The instructions: one constructor for each row of the opcode table. Four are the
command codes, nine the register accesses, two the accesses of the data window, two the wire frames. -/

namespace Sys2Proof

/-- One constructor per row of opcode_table.json, in the table's order. -/
inductive Instr where
  /-- NOP: command code 0 (R163). -/
  | nop
  /-- ENCODE: command code 1 (R110). -/
  | encode
  /-- DECODE: command code 2 (R130). -/
  | decode
  /-- RESERVED3: command code 3 (R93). -/
  | reserved3
  /-- WR SETTLE_MS, v: register 5 (R160). -/
  | wrSettleMs (v : Word)
  /-- WR TYPE, v: register 3 (R164). -/
  | wrType (v : Byte)
  /-- WR DLEN, v: register 4 (R164). -/
  | wrDlen (v : Byte)
  /-- WRD i, b: DBUF[i] <- b (R164). -/
  | wrd (i : Nat) (b : Byte)
  /-- WR CMD, c: register 0 with any of the four codes (R92). -/
  | wrCmd (c : BitVec 2)
  /-- RD STATUS: register 1 (R161). -/
  | rdStatus
  /-- RD RESULT: register 2 (R162). -/
  | rdResult
  /-- RD TYPE: register 3 (R165). -/
  | rdType
  /-- RD DLEN: register 4 (R165). -/
  | rdDlen
  /-- RD SETTLE_MS: register 5 (R165). -/
  | rdSettleMs
  /-- RDD i: DBUF[i] (R165). -/
  | rdd (i : Nat)
  /-- FRAME: a frame with type tag t and data d on the receive line (R80). DESIGN CHOICE, log entry 12. -/
  | frame (t : Byte) (d : List Byte)
  /-- FRAME.SET: the command layer's set frame (R180). DESIGN CHOICE, log entry 13. -/
  | frameSet (uu ll ff vv : Byte)
  deriving DecidableEq, Repr

/-- Why a line is no instruction. The decoder rejects by these names; bytes on the wire that make no frame still arrive. -/
inductive Reject where
  /-- A line with no bytes, or too few for its select and number. -/
  | shortLine
  /-- Bytes left over after the access. -/
  | trailingBytes
  /-- A select byte that names no space of R50. -/
  | noSuchSelect
  /-- A command code above 3: CMD is 2 bits wide (R23). -/
  | noSuchCommand
  /-- A register number of 6 or above (R22, U10). -/
  | noSuchRegister
  /-- A window index of 252 or above (R29, U10). -/
  | noSuchWindowByte
  /-- A write to STATUS or RESULT, which are read only (R22). -/
  | readOnlyRegister
  /-- A read of CMD, which is not possible (R23). -/
  | writeOnlyRegister
  /-- A wire frame whose first byte is not 0x81 (R81). -/
  | frameBadMagic
  /-- A wire frame whose length byte is 0, 1 or 255 (R82, R90). -/
  | frameBadLength
  /-- A wire frame whose data are not LEN - 2 bytes (R85, R86). -/
  | frameWrongSize
  /-- A wire frame whose checksum is not the sum of its data (R84). -/
  | frameBadChecksum
  /-- Bytes that are not of the shape of the set frame (R180). -/
  | notSetFrame
  deriving DecidableEq, Repr

end Sys2Proof
end

