-- ==== Sys2Proof/WellFormed.lean ====
section
/-! DEFINITION. Which instruction terms stand for an access or a frame the spec has: window indexes 0 to 251 (R29) and
at most 252 data bytes (R20, R80). Every other operand is bounded by its type. -/

namespace Sys2Proof

/-- The operands are in the ranges the spec gives them. -/
def Instr.wf (i : Instr) : Bool :=
  match i with
  | .wrd n _ => n < Config.maxData
  | .rdd n => n < Config.maxData
  | .frame _ d => d.length ≤ Config.maxData
  | .nop | .encode | .decode | .reserved3 | .wrSettleMs _ | .wrType _ | .wrDlen _ | .wrCmd _ | .rdStatus | .rdResult
  | .rdType | .rdDlen | .rdSettleMs | .frameSet _ _ _ _ => true

/-- An instruction whose operands the spec admits. -/
abbrev Instr.WellFormed (i : Instr) : Prop := i.wf = true

end Sys2Proof
end

