-- ==== Sys2Proof/Decode.lean ====
section
/-! DEFINITION. The host's lines as bytes: decoder, encoder and the opcode table's words.

The spec numbers the registers (R22), the window bytes (R29), the command codes (R92) and the bytes of a frame (R80),
and keeps these spaces apart (R50); it lays no bits out for the select between them. DESIGN CHOICE (log entry 1): a line
is one select byte, then the number, code or index in one byte, then the value, the low byte of SETTLE_MS first; for the
two wire rows the bytes of the frame itself follow the select byte. Unsafe to read as a bus format of the device. -/

namespace Sys2Proof

open Sys2Proof.Machine (frameBytes setData sum8 lenLegal)

/-- The select byte of each of the table's formats (log entry 1). -/
abbrev selCmd : Byte := 0
abbrev selRegWr : Byte := 1
abbrev selRegRd : Byte := 2
abbrev selWinWr : Byte := 3
abbrev selWinRd : Byte := 4
abbrev selWire : Byte := 5
abbrev selSet : Byte := 6

/-- A command code (R92); codes above 3 do not fit CMD (R23). -/
def decodeCommand (c : Byte) : Except Reject Instr :=
  match c.toNat with
  | 0 => .ok .nop
  | 1 => .ok .encode
  | 2 => .ok .decode
  | 3 => .ok .reserved3
  | _ => .error .noSuchCommand

/-- A write to register `n`, by the table of R22. -/
def decodeRegWrite (n : Byte) (v : List Byte) : Except Reject Instr :=
  match n.toNat, v with
  | 0, [c] => if c.toNat < 4 then .ok (.wrCmd (c.setWidth 2)) else .error .noSuchCommand
  | 1, _ => .error .readOnlyRegister
  | 2, _ => .error .readOnlyRegister
  | 3, [b] => .ok (.wrType b)
  | 4, [b] => .ok (.wrDlen b)
  | 5, [lo, hi] => .ok (.wrSettleMs (hi ++ lo))
  | k, v => if 6 ≤ k then .error .noSuchRegister
      else if v.length < 2 then .error .shortLine else .error .trailingBytes

/-- A read of register `n`, by the table of R22. -/
def decodeRegRead (n : Byte) : Except Reject Instr :=
  match n.toNat with
  | 0 => .error .writeOnlyRegister
  | 1 => .ok .rdStatus
  | 2 => .ok .rdResult
  | 3 => .ok .rdType
  | 4 => .ok .rdDlen
  | 5 => .ok .rdSettleMs
  | _ => .error .noSuchRegister

/-- A wire frame, by its layout (R80): magic, a legal length, as many data bytes as it says, the right checksum. -/
def decodeFrame (w : List Byte) : Except Reject Instr :=
  match w with
  | m :: l :: t :: c :: d =>
    if m ≠ Config.magic then .error .frameBadMagic
    else if !lenLegal l.toNat then .error .frameBadLength
    else if d.length + Config.lenOverhead ≠ l.toNat then .error .frameWrongSize
    else if sum8 d ≠ c then .error .frameBadChecksum
    else .ok (.frame t d)
  | _ => .error .shortLine

/-- The frame of the set payload (R180), its fixed bytes and its checksum checked. -/
def decodeSetFrame (w : List Byte) : Except Reject Instr :=
  match w with
  | [m, l, t, c, d0, d1, d2, uu, ll, ff, vv] =>
    if [m, l, t, c, d0, d1, d2, uu, ll, ff, vv] = frameBytes Config.typeSet (setData uu ll ff vv)
    then .ok (.frameSet uu ll ff vv) else .error .notSetFrame
  | _ => .error .notSetFrame

/-- The instruction a host line stands for, or the name of what is wrong with it. Total. -/
def decodeLine (line : List Byte) : Except Reject Instr :=
  match line with
  | [] => .error .shortLine
  | sel :: rest =>
    match sel.toNat, rest with
    | 5, w => decodeFrame w
    | 6, w => decodeSetFrame w
    | 0, [c] => decodeCommand c
    | 1, n :: v => decodeRegWrite n v
    | 2, [n] => decodeRegRead n
    | 3, [i, b] => if i.toNat < Config.maxData then .ok (.wrd i.toNat b) else .error .noSuchWindowByte
    | 4, [i] => if i.toNat < Config.maxData then .ok (.rdd i.toNat) else .error .noSuchWindowByte
    | k, r =>
      if 7 ≤ k then .error .noSuchSelect
      else if r.length < 2 then .error .shortLine else .error .trailingBytes

/-- The line of an instruction, written from the same numbers (R22, R29, R80, R92). -/
def encodeLine (i : Instr) : List Byte :=
  match i with
  | .nop => [selCmd, 0]
  | .encode => [selCmd, 1]
  | .decode => [selCmd, 2]
  | .reserved3 => [selCmd, 3]
  | .wrSettleMs v => [selRegWr, 5, v.extractLsb' 0 8, v.extractLsb' 8 8]
  | .wrType v => [selRegWr, 3, v]
  | .wrDlen v => [selRegWr, 4, v]
  | .wrd n b => [selWinWr, BitVec.ofNat 8 n, b]
  | .wrCmd c => [selRegWr, 0, c.setWidth 8]
  | .rdStatus => [selRegRd, 1]
  | .rdResult => [selRegRd, 2]
  | .rdType => [selRegRd, 3]
  | .rdDlen => [selRegRd, 4]
  | .rdSettleMs => [selRegRd, 5]
  | .rdd n => [selWinRd, BitVec.ofNat 8 n]
  | .frame t d => selWire :: frameBytes t d
  | .frameSet uu ll ff vv => selSet :: frameBytes Config.typeSet (setData uu ll ff vv)

/-- The `n` low bytes of `w`, least significant first. -/
def lowBytes (n w : Nat) : List Byte :=
  match n with
  | 0 => []
  | k + 1 => BitVec.ofNat 8 w :: lowBytes k (w / 256)

/-- The eleven bytes of a FRAME.SET word. The table's note puts byte 0 most significant, which makes byte 6 the fixed 0x83
of R180; a word whose byte 6 is another is read the other way about, where that place holds the fixed 0x02. No operand
byte decides the order, so every value of each is read (R180). A checksum byte the word leaves 0 is filled in: it is no
operand (R84). Log entry 2. -/
def setFrameWord (w : Nat) : List Byte :=
  let be := (lowBytes 11 w).reverse
  let bs := if be.getD 6 0 = 0x83 then be else lowBytes 11 w
  if bs.getD 3 0 = 0 then bs.set 3 (sum8 (bs.drop Config.frameOverhead)) else bs

/-- The line of a word of opcode_table.json. The table's words carry no select, so that rows of different formats share
a word: the formats are tried in the table's order, and the first that has the word gives the line. What a word does not hold
is 0: for the word 0x81 the type tag too, though the spec names no tag for received frames (R183). DESIGN CHOICE, log
entry 2. -/
def tableLine (nbits w : Nat) : List Byte :=
  if nbits = 0 then [selWinWr, 0, 0]
  else if nbits = 88 then selSet :: setFrameWord w
  else if w < 4 then [selCmd, BitVec.ofNat 8 w]
  else if w = 4 then [selRegWr, 4, 0]
  else if w = 5 then [selRegWr, 5, 0, 0]
  else if w = 0x81 then selWire :: frameBytes 0 []
  else selCmd :: lowBytes (nbits / 8) w

/-- The instruction the decoder reads from a word of the opcode table (log entry 2). -/
def decodeTableWord (nbits w : Nat) : Option Instr :=
  match decodeLine (tableLine nbits w) with
  | .ok i => some i
  | .error _ => none

end Sys2Proof
end

