-- ==== Sys2Proof/Machine/State.lean ====
section
/-! DEFINITION. The machine's state: the block's registers and buffer (10_state.md), the transport's queue, level and
wire (R34), and the model's own bookkeeping; the reasons a step can stop; the state right after reset. -/

namespace Sys2Proof.Machine

/-- PHASE, the sequencing state that stands where a program counter would (R31). -/
inductive Phase where
  | idle | rxWait | rxSettle | rxHdr | rxBody | rxCheck | txBuild | txSend
  deriving DecidableEq, Repr

/-- What the transmit environment does with the next TxWrite (R57; the line TXACC of R94): a free choice, or `k` bytes,
or all of them. DESIGN CHOICE, log entry 22. -/
inductive TxAccept where
  | free
  | exactly (k : Nat)
  | all
  deriving DecidableEq, Repr

/-- One turn of one agent (R8), the lines of R94 among them. DESIGN CHOICE, log entry 3. -/
inductive Turn where
  /-- The host makes the access this line of bytes encodes. -/
  | host (line : List Byte)
  /-- The codec takes the step of its phase (R31). -/
  | codec
  /-- The receive environment appends bytes to RXQ (R54). -/
  | rx (bs : List Byte)
  /-- The receive environment sets the level rx_err (R56). -/
  | rxErr (level : Bool)
  /-- The clock delivers one tick (R32). -/
  | tick
  /-- The transmit environment settles its choice for the next TxWrite (R57). -/
  | txAcc (a : TxAccept)
  /-- The reset input is asserted (R220, R221). -/
  | reset
  deriving DecidableEq, Repr

/-- Why the machine stops. -/
inductive Fault where
  /-- Raised by a codec step that would reach FB beyond index 255. The spec says no rule does (R51), and no state of the
  invariant `Inv` does: only states no run reaches stop so. Safe: it stops where the spec gives no effect. -/
  | fbOutOfRange (a : Nat)
  deriving DecidableEq, Repr

/-- Why a turn has no meaning. -/
inductive Refusal where
  /-- Raised by an arm of `exec` whose instruction has no meaning yet. Safe: nothing is claimed of it. -/
  | notModelled (mnemonic : String)
  /-- Raised by a host turn whose line is no access of the block: a register, window byte or command that does not exist,
  a read of CMD, a write of a read-only register (R22, R23, R29, R166, U10; log entry 17), and by WRD, RDD and FRAME on
  operands the spec does not have (R29, R88). Bytes on the wire never raise it: they arrive. Safe: the spec gives these
  no meaning. -/
  | badAccess (why : Reject)
  /-- Raised by an arrival that does not fit a finite `Config.rxqDepth` (R64, U13). With the depth unbounded, as the spec
  has it when no depth is given, no step raises it. Safe. -/
  | rxqOverflow
  deriving DecidableEq, Repr

/-- The machine's state. Plain data. -/
structure State where
  /-- PHASE (R31). -/
  phase : Phase
  /-- STATUS.BUSY (R24). -/
  busy : Bool
  /-- STATUS.DONE (R24). -/
  done : Bool
  /-- RESULT, 4 bits (R25). -/
  result : BitVec 4
  /-- TYPE (R26). -/
  typ : Byte
  /-- DLEN (R27). -/
  dlen : Byte
  /-- SETTLE_MS (R28). -/
  settleMs : Word
  /-- TMR, the settle timer (R32). -/
  tmr : Word
  /-- SUM, the checksum accumulator (R33). -/
  sum : Byte
  /-- FB, the frame buffer (R30): the places whose content is specified, by rising index. A place not listed holds an
  unspecified byte (R38); log entry 6. -/
  fb : List Host.Cell
  /-- RXQ, the receive queue, oldest byte first (R34, R54). -/
  rxq : List Byte
  /-- rx_err, the transport's error level (R34, R56). -/
  rxErr : Bool
  /-- TXW, the transmit wire, oldest byte first (R34, R57). -/
  txw : List Byte
  /-- The model's own: the value the last host read returned, zero-extended. Log entry 10. -/
  rdata : Word
  /-- The model's own: the turns to come, the next first. Log entry 3. -/
  agenda : List Turn
  /-- The model's own: the transmit environment's choice for the next TxWrite. Log entry 22. -/
  txNext : TxAccept
  /-- The model's own: the generation of the unspecified contents of FB[0..3]. Log entry 6. -/
  hdrGen : Nat
  /-- The model's own: the generation of the unspecified contents of FB[4..255]. Log entry 6. -/
  dataGen : Nat
  /-- The model's own: how many free draws have been made. Log entry 5. -/
  draws : Nat
  deriving DecidableEq, Repr

/-- The machine right after reset, the transport silent and empty: the "After reset" column of R38 (R220). FB lists
nothing, since its contents are unspecified. The transport's values are a DESIGN CHOICE (log entry 11), since reset does
not touch them (R221), and so are the model's own fields (log entries 3, 5, 6, 10, 22). -/
def State.reset : State where
  phase := .idle
  busy := false
  done := false
  result := 0
  typ := 0
  dlen := 0
  settleMs := Config.settleDefault
  tmr := 0
  sum := 0
  fb := []
  rxq := []
  rxErr := false
  txw := []
  rdata := 0
  agenda := []
  txNext := .free
  hdrGen := 0
  dataGen := 0
  draws := 1

end Sys2Proof.Machine
end

