-- ==== Sys2Proof/Machine/Ops.lean ====
section
/-! DEFINITION. The named operations every meaning and codec step is written over: the frame buffer, the transport
primitives (R54 to R57), the ends of an operation (`raise`, R199) with what they leave unspecified (R38), the taking of a
command (R23), the tick (R32) and reset (R220). -/

namespace Sys2Proof.Machine

/-- The state with the turns `l` to come, all else as it was (log entry 3). -/
def withAgenda (l : List Turn) (s : State) : State :=
  { s with agenda := l }

/-! ### The frame buffer as a list of cells -/

/-- The canonical form: indexes strictly rising, each inside FB (R30). An index not listed reads as no specified value,
so no entry can equal it. -/
abbrev Memory.wf (m : List Host.Cell) : Prop :=
  m.Pairwise (fun c c' => c.1 < c'.1) ∧ ∀ c ∈ m, c.1 < Config.fbSize

/-- The specified byte at index `a`, if its content is specified. -/
def Memory.find (m : List Host.Cell) (a : Nat) : Option Byte :=
  match m with
  | [] => none
  | (k, b) :: rest => if k = a then some b else Memory.find rest a

/-- Byte `b` at index `a`, in its place in the rising order. -/
def Memory.insert (m : List Host.Cell) (a : Nat) (b : Byte) : List Host.Cell :=
  match m with
  | [] => [(a, b)]
  | (k, c) :: rest =>
    if a < k then (a, b) :: (k, c) :: rest
    else if a = k then (a, b) :: rest
    else (k, c) :: Memory.insert rest a b

/-- The bytes of `bs` at `a`, `a + 1`, and so on. -/
def Memory.insertAll (m : List Host.Cell) (a : Nat) (bs : List Byte) : List Host.Cell :=
  match bs with
  | [] => m
  | b :: rest => Memory.insertAll (Memory.insert m a b) (a + 1) rest

/-- Only the places `lo ≤ a < hi` stay specified. -/
def Memory.keep (m : List Host.Cell) (lo hi : Nat) : List Host.Cell :=
  m.filter (fun c => lo ≤ c.1 && c.1 < hi)

/-- `FB[a]`: its specified byte, or the free value an unspecified place holds (R38, U8; log entry 6). The header's four
places and the data's have generations of their own, since ENCODE leaves only the header unspecified. -/
def fbByte (s : State) (a : Nat) : Byte :=
  match Memory.find s.fb a with
  | some b => b
  | none => Config.freeFb (if a < Config.frameOverhead then s.hdrGen else s.dataGen) a

/-- `FB[a] <- b` for an index inside FB. -/
def fbSet (a : Nat) (b : Byte) (s : State) : State :=
  { s with fb := Memory.insert s.fb a b }

/-- `FB[a], ..., FB[a+n-1]`, without the bound. -/
def fbSlice (s : State) (a n : Nat) : List Byte :=
  (List.range n).map (fun i => fbByte s (a + i))

/-- `MemRead(a, n)`: needs `a + n ≤ FB_SIZE` (00_scope.md, notation). `none` beyond (log entry 16). -/
def memRead (s : State) (a n : Nat) : Option (List Byte) :=
  if a + n ≤ Config.fbSize then some (fbSlice s a n) else none

/-- `MemWrite(a, n, s)`: needs `a + n ≤ FB_SIZE` (00_scope.md, notation). `none` beyond (log entry 16). -/
def memWrite (a : Nat) (bs : List Byte) (s : State) : Option State :=
  if a + bs.length ≤ Config.fbSize then some { s with fb := Memory.insertAll s.fb a bs } else none

/-! ### The transport -/

/-- `RxReadable()`: at least one byte is queued (R55). -/
def rxReadable (s : State) : Bool :=
  !s.rxq.isEmpty

/-- The bytes `RxRead(n)` returns: the first `min(n, |RXQ|)` (R54). -/
def rxTaken (n : Nat) (s : State) : List Byte :=
  s.rxq.take n

/-- RXQ after `RxRead(n)`: without the bytes returned (R54). -/
def rxDrop (n : Nat) (s : State) : State :=
  { s with rxq := s.rxq.drop n }

/-- A queue of `q` bytes has room for `n` more (R64; no depth given means unbounded). -/
def rxqFits (depth : Option Nat) (q n : Nat) : Bool :=
  match depth with
  | none => true
  | some d => q + n ≤ d

/-- Bytes arrive, at the tail of RXQ in their order (R8, R54). What becomes of bytes beyond a finite depth is the
transport's affair and not modelled (R64): refused by name. -/
def arrive (bs : List Byte) (s : State) : Host.Outcome State Fault Refusal :=
  if rxqFits Config.rxqDepth s.rxq.length bs.length then .next { s with rxq := s.rxq ++ bs }
  else .refused .rxqOverflow

/-- How many of `n` offered bytes the transmit environment accepts: any value in `0 .. n` (R57, U5; log entry 22). -/
def txCount (n : Nat) (s : State) : Nat :=
  match s.txNext with
  | .free => Config.freeAccept s.draws % (n + 1)
  | .exactly k => min k n
  | .all => n

/-- TXW and the environment's choice after `TxWrite(bs)` has accepted `k` bytes (R57). -/
def txAppend (bs : List Byte) (k : Nat) (s : State) : State :=
  { s with txw := s.txw ++ bs.take k, txNext := .free, draws := s.draws + 1 }

/-! ### The end of an operation -/

/-- The end of an operation with result `k`: `raise` (R199) for a failure, the same four writes for success (R112,
R138). Control goes nowhere, nothing is saved, and there is no return operation (R199, R200). -/
def finish (k : Kind) (s : State) : State :=
  { s with result := k.code, done := true, busy := false, phase := .idle }

/-- SUM is unspecified after an operation (R38): a free value (log entry 7). -/
def forgetSum (s : State) : State :=
  { s with sum := Config.freeSum s.draws, draws := s.draws + 1 }

/-- `FB[0]` to `FB[3]` are unspecified after ENCODE (R38), the data bytes unchanged (R115; log entry 6). -/
def forgetHeader (s : State) : State :=
  { s with fb := Memory.keep s.fb Config.frameOverhead Config.fbSize, hdrGen := s.draws, draws := s.draws + 1 }

/-- After a DECODE only the `n` received data bytes stay specified in FB (R38; log entry 6). -/
def forgetAllBut (n : Nat) (s : State) : State :=
  { s with
    fb := Memory.keep s.fb Config.frameOverhead (Config.frameOverhead + n)
    hdrGen := s.draws
    dataGen := s.draws
    draws := s.draws + 1 }

/-- TYPE, DLEN and TMR are unspecified after a failed DECODE (R38): free values (log entry 7). -/
def forgetResults (s : State) : State :=
  { s with
    typ := Config.freeType s.draws
    dlen := Config.freeDlen s.draws
    tmr := Config.freeTmr s.draws
    draws := s.draws + 1 }

/-- A DECODE ends in failure `k`: `raise` (R199), and no register or buffer keeps anything of the frame (R38, R141). -/
def failDecode (k : Kind) (s : State) : State :=
  forgetSum (forgetResults (forgetAllBut 0 (finish k s)))

/-- A DECODE ends `Ok` with type tag `t` and `n` data bytes (R138); the rest of FB, and SUM, are unspecified (R38). -/
def deliver (t : Byte) (n : Nat) (s : State) : State :=
  forgetSum (forgetAllBut n (finish .ok { s with typ := t, dlen := BitVec.ofNat 8 n }))

/-- An ENCODE ends with result `k` after its frame was built: header and SUM are unspecified, TYPE, DLEN, DBUF and
SETTLE_MS stand (R38, R115). -/
def endEncode (k : Kind) (s : State) : State :=
  forgetSum (forgetHeader (finish k s))

/-! ### Commands, the clock and reset -/

/-- A write of command code `c` to CMD: ignored while BUSY; 1 and 2 start an operation; 0 and the reserved 3 start none
(R23, R93, R163; log entry 9). -/
def takeCommand (c : BitVec 2) (s : State) : State :=
  if s.busy then s
  else if c = 1 then { s with busy := true, done := false, phase := .txBuild }
  else if c = 2 then { s with busy := true, done := false, phase := .rxWait }
  else s

/-- One tick: TMR counts down in RX_SETTLE while it is above 0, and nothing else happens (R32, R140; log entry 15). -/
def clockTick (s : State) : State :=
  if s.phase = .rxSettle ∧ s.tmr ≠ 0 then { s with tmr := s.tmr - 1 } else s

/-- The reset input is asserted: the block's state takes its reset values and FB becomes unspecified (R220, R38); the
transport is not touched (R221), nor is what the host last read or the turns to come (log entry 19). -/
def blockReset (s : State) : State :=
  { s with
    phase := .idle
    busy := false
    done := false
    result := 0
    typ := 0
    dlen := 0
    settleMs := Config.settleDefault
    tmr := 0
    sum := 0
    fb := []
    hdrGen := s.draws
    dataGen := s.draws
    draws := s.draws + 1 }

end Sys2Proof.Machine
end

