-- ==== Sys2Proof/Machine/Flags.lean ====
section
/-! DEFINITION. The flags: the STATUS register's value (R24, R161). The block has no arithmetic condition codes (R36);
BUSY, DONE and RESULT are written by `takeCommand`, `finish` and `blockReset` of Ops and by nothing else. -/

namespace Sys2Proof.Machine

/-- The weight of a flag in a status word. -/
def flag (on : Bool) (weight : Nat) : Nat :=
  if on then weight else 0

/-- STATUS: BUSY in bit 0, DONE in bit 1, the live RXRDY in bit 2 and RXERR in bit 3, bits 7:4 zero (R24, R161). -/
def statusWord (s : State) : Byte :=
  BitVec.ofNat 8 (flag s.rxErr 8 + flag (rxReadable s) 4 + flag s.done 2 + flag s.busy 1)

end Sys2Proof.Machine
end

