-- ==== Sys2Proof/Machine/Operands.lean ====
section
/-! DEFINITION. The operand forms of the host's accesses: writes that are dropped while BUSY (R39, R63), reads that return
a free value while BUSY (R39), the data window's indexes (R29). -/

namespace Sys2Proof.Machine

/-- The place of `DBUF[i]` in FB (R29). -/
def dbufIndex (i : Nat) : Nat :=
  Config.frameOverhead + i

/-- A host write to an operand register: it takes effect unless BUSY, when it is dropped, not deferred (R39, R63). -/
def hostWrite (written s : State) : State :=
  if s.busy then s else written

/-- A host read returns `v`. -/
def hostRead (v : Word) (s : State) : State :=
  { s with rdata := v }

/-- A host read of a register that has no specified value while BUSY (R39): `v` when idle, else the free value `free`
(log entry 8). -/
def hostReadIdle (v free : Word) (s : State) : State :=
  if s.busy then { s with rdata := free, draws := s.draws + 1 } else hostRead v s

/-- `TYPE <- v` (R164). -/
def writeType (v : Byte) (s : State) : State :=
  hostWrite { s with typ := v } s

/-- `DLEN <- v` (R164). -/
def writeDlen (v : Byte) (s : State) : State :=
  hostWrite { s with dlen := v } s

/-- `SETTLE_MS <- v` (R160). -/
def writeSettle (v : Word) (s : State) : State :=
  hostWrite { s with settleMs := v } s

/-- `FB[4 + i] <- b` for a window index in range (R164). -/
def writeDbuf (i : Nat) (b : Byte) (s : State) : State :=
  hostWrite (fbSet (dbufIndex i) b s) s

/-- `DBUF[i], DBUF[i+1], ... <- bs`, one window write after another (the pseudo-line LDD of R94). -/
def writeDbufs (i : Nat) (bs : List Byte) (s : State) : State :=
  match bs with
  | [] => s
  | b :: rest => writeDbufs (i + 1) rest (writeDbuf i b s)

end Sys2Proof.Machine
end

