-- ==== Sys2Proof/Machine/Codec.lean ====
section
/-! DEFINITION. The codec's steps, one per phase (R31), each one atomic transition: TX_BUILD and TX_SEND (R112), RX_WAIT,
RX_SETTLE, RX_HDR, RX_BODY and RX_CHECK (R140). -/

namespace Sys2Proof.Machine

/-- RX_WAIT: enabled only when an error is reported or a byte is queued; the error wins (R131, R140, R142). -/
def stepRxWait (s : State) : Host.Outcome State Fault Refusal :=
  if s.rxErr then .next (failDecode .ioError s)
  else if rxReadable s then .next { s with tmr := s.settleMs, phase := .rxSettle }
  else .next s

/-- RX_SETTLE: the codec goes on once TMR is 0; until then only the clock has a step (R132, R140). -/
def stepRxSettle (s : State) : Host.Outcome State Fault Refusal :=
  if s.tmr = 0 then .next { s with phase := .rxHdr } else .next s

/-- RX_HDR once the two header bytes were asked for and `n` of them came: the tests in their order (R133 to R135, R140). -/
def checkHeader (n : Nat) (s : State) : State :=
  if n < Config.hdrBytes then failDecode .shortRead s
  else if fbByte s 0 ≠ Config.magic then failDecode .badMagic s
  else if !lenLegal (fbByte s 1).toNat then failDecode .badLength s
  else { s with phase := .rxBody }

/-- RX_HDR: the error test, the header read into FB[0] and FB[1], the three checks (R140). -/
def stepRxHdr (s : State) : Host.Outcome State Fault Refusal :=
  if s.rxErr then .next (failDecode .ioError s)
  else
    match memWrite 0 (rxTaken Config.hdrBytes s) (rxDrop Config.hdrBytes s) with
    | none => .fault (.fbOutOfRange 1)
    | some t => .next (checkHeader (rxTaken Config.hdrBytes s).length t)

/-- RX_BODY once `l` bytes were asked for and `n` of them came: the count (R136, R140). -/
def checkBody (n l : Nat) (s : State) : State :=
  if n < l then failDecode .shortRead s else { s with phase := .rxCheck }

/-- RX_BODY: the error test, the read of `LEN` further bytes into FB[2..), the count (R136, R140). -/
def stepRxBody (s : State) : Host.Outcome State Fault Refusal :=
  if s.rxErr then .next (failDecode .ioError s)
  else
    let l := (fbByte s 1).toNat
    match memWrite Config.hdrBytes (rxTaken l s) (rxDrop l s) with
    | none => .fault (.fbOutOfRange (l + 1))
    | some t => .next (checkBody (rxTaken l s).length l t)

/-- RX_CHECK: SUM of the data bytes against the checksum byte; on agreement the payload is delivered (R137, R138, R140). -/
def stepRxCheck (s : State) : Host.Outcome State Fault Refusal :=
  let n := (fbByte s 1).toNat - Config.lenOverhead
  match memRead s Config.frameOverhead n with
  | none => .fault (.fbOutOfRange (n + 3))
  | some d =>
    let t := { s with sum := sum8 d }
    if t.sum ≠ fbByte t 3 then .next (failDecode .checksumMismatch t) else .next (deliver (fbByte t 2) n t)

/-- The four header bytes of the image in FB, the checksum from SUM (R112). -/
def buildHeader (s : State) : State :=
  fbSet 3 s.sum (fbSet 2 s.typ (fbSet 1 (lenByte s.dlen.toNat) (fbSet 0 Config.magic s)))

/-- TX_BUILD: an over-long DLEN is BadLength with FB and TXW untouched (R111; log entry 23); otherwise SUM and the header
are written (R112). -/
def stepTxBuild (s : State) : Host.Outcome State Fault Refusal :=
  if Config.maxData < s.dlen.toNat then .next (forgetSum (finish .badLength s))
  else
    match memRead s Config.frameOverhead s.dlen.toNat with
    | none => .fault (.fbOutOfRange (s.dlen.toNat + 3))
    | some d => .next { buildHeader { s with sum := sum8 d } with phase := .txSend }

/-- TX_SEND: one TxWrite of the image; a short count is IoError, with the accepted bytes gone out (R112, R113). -/
def stepTxSend (s : State) : Host.Outcome State Fault Refusal :=
  match memRead s 0 (Config.frameOverhead + s.dlen.toNat) with
  | none => .fault (.fbOutOfRange (s.dlen.toNat + 3))
  | some f =>
    let k := txCount f.length s
    .next (endEncode (if k < f.length then .ioError else .ok) (txAppend f k s))

/-- The step the phase names (R31). In IDLE, and where the phase's step is not enabled, the codec has none and nothing
changes (R131, R206). -/
def codecStep (s : State) : Host.Outcome State Fault Refusal :=
  match s.phase with
  | .idle => .next s
  | .rxWait => stepRxWait s
  | .rxSettle => stepRxSettle s
  | .rxHdr => stepRxHdr s
  | .rxBody => stepRxBody s
  | .rxCheck => stepRxCheck s
  | .txBuild => stepTxBuild s
  | .txSend => stepTxSend s

end Sys2Proof.Machine
end

