-- ==== Sys2Proof/Machine/Command.lean ====
section
/-! DEFINITION. The command rows: NOP, ENCODE, DECODE, RESERVED3 and WR_CMD (R92, R23). The phases of an operation in
progress are in Codec. -/

namespace Sys2Proof.Machine

/-- NOP: command code 0. Nothing changes (R163). -/
def execNop (s : State) : Host.Outcome State Fault Refusal :=
  .next (takeCommand 0 s)

/-- ENCODE: command code 1, taken when not BUSY; the codec's steps TX_BUILD and TX_SEND do the rest (R23, R110, R112). -/
def execEncode (s : State) : Host.Outcome State Fault Refusal :=
  .next (takeCommand 1 s)

/-- DECODE: command code 2, taken when not BUSY; the codec's steps from RX_WAIT on do the rest (R23, R130, R140). -/
def execDecode (s : State) : Host.Outcome State Fault Refusal :=
  .next (takeCommand 2 s)

/-- RESERVED3: command code 3, which the hardware treats as it treats 0 (R93; log entry 9). -/
def execReserved3 (s : State) : Host.Outcome State Fault Refusal :=
  .next (takeCommand 3 s)

/-- WR_CMD: a write of any code to register 0 (R22, R92). -/
def execWrCmd (c : BitVec 2) (s : State) : Host.Outcome State Fault Refusal :=
  .next (takeCommand c s)

end Sys2Proof.Machine
end

