-- ==== Sys2Proof/Machine/RegRead.lean ====
section
/-! DEFINITION. The host's reads (R161, R162, R165): the value returned goes to `rdata`, zero-extended (log entry 10). -/

namespace Sys2Proof.Machine

/-- RD_STATUS: legal at any time, no side effect (R161, R39). -/
def execRdStatus (s : State) : Host.Outcome State Fault Refusal :=
  .next (hostRead ((statusWord s).setWidth 16) s)

/-- RD_RESULT: 4 bits, zero-extended (R162); unspecified while BUSY (R39). -/
def execRdResult (s : State) : Host.Outcome State Fault Refusal :=
  .next (hostReadIdle (s.result.setWidth 16) ((Config.freeResultRead s.draws).setWidth 16) s)

/-- RD_TYPE (R165); unspecified while BUSY (R39). -/
def execRdType (s : State) : Host.Outcome State Fault Refusal :=
  .next (hostReadIdle (s.typ.setWidth 16) ((Config.freeByteRead s.draws).setWidth 16) s)

/-- RD_DLEN (R165); unspecified while BUSY (R39). -/
def execRdDlen (s : State) : Host.Outcome State Fault Refusal :=
  .next (hostReadIdle (s.dlen.setWidth 16) ((Config.freeByteRead s.draws).setWidth 16) s)

/-- RD_SETTLE_MS: reads its stored value at all times (R165, R39). -/
def execRdSettleMs (s : State) : Host.Outcome State Fault Refusal :=
  .next (hostRead s.settleMs s)

/-- RDD: `FB[4 + i]` (R165), a free value where R38 leaves it unspecified, and while BUSY (R39). DESIGN CHOICE, log entry
25: for `i ≥ DLEN` too a byte the host wrote, or one received below the DLEN the DECODE delivered, reads as stored,
though R165 calls `RDD i` with `i ≥ DLEN` unspecified. Indexes 252 and above do not exist (R29, U10; log entry 17); the
decoder gives none. -/
def execRdd (i : Nat) (s : State) : Host.Outcome State Fault Refusal :=
  if i < Config.maxData then
    .next (hostReadIdle ((fbByte s (dbufIndex i)).setWidth 16) ((Config.freeByteRead s.draws).setWidth 16) s)
  else .refused (.badAccess .noSuchWindowByte)

end Sys2Proof.Machine
end

