-- ==== Sys2Proof/Machine/RegWrite.lean ====
section
/-! DEFINITION. The host's writes to the operand and configuration registers and to the data window (R160, R164). -/

namespace Sys2Proof.Machine

/-- WR_SETTLE_MS (R160). -/
def execWrSettleMs (v : Word) (s : State) : Host.Outcome State Fault Refusal :=
  .next (writeSettle v s)

/-- WR_TYPE (R164). -/
def execWrType (v : Byte) (s : State) : Host.Outcome State Fault Refusal :=
  .next (writeType v s)

/-- WR_DLEN (R164); 253 to 255 are accepted and found by ENCODE (R111). -/
def execWrDlen (v : Byte) (s : State) : Host.Outcome State Fault Refusal :=
  .next (writeDlen v s)

/-- WRD (R164). Indexes 252 and above do not exist (R29, U10; log entry 17); the decoder gives none. -/
def execWrd (i : Nat) (b : Byte) (s : State) : Host.Outcome State Fault Refusal :=
  if i < Config.maxData then .next (writeDbuf i b s) else .refused (.badAccess .noSuchWindowByte)

end Sys2Proof.Machine
end

