-- ==== Sys2Proof/Machine/Wire.lean ====
section
/-! DEFINITION. The two wire rows. The block has no operation of these names; the spec gives them as the shape of what
travels on the line. -/

namespace Sys2Proof.Machine

/-- FRAME: a whole frame arrives on the receive line (R80, R88; the line RX of R94). DESIGN CHOICE, log entry 12. A frame
of more than 252 data bytes does not exist (R20, R88); the decoder gives none. -/
def execFrame (t : Byte) (d : List Byte) (s : State) : Host.Outcome State Fault Refusal :=
  if d.length ≤ Config.maxData then arrive (frameBytes t d) s else .refused (.badAccess .frameWrongSize)

/-- FRAME.SET: the host hands the set payload to ENCODE, as the pseudo-line `ENCODE 0x04, [...]` of R94 up to its CMD
write: WR TYPE, WR DLEN, seven WRD, CMD 1 (R180, R164, R23). DESIGN CHOICE, log entry 13. -/
def execFrameSet (uu ll ff vv : Byte) (s : State) : Host.Outcome State Fault Refusal :=
  .next (takeCommand 1 (writeDbufs 0 (setData uu ll ff vv)
    (writeDlen (BitVec.ofNat 8 (setData uu ll ff vv).length) (writeType Config.typeSet s))))

end Sys2Proof.Machine
end

