-- ==== Sys2Proof/Machine/Dispatch.lean ====
section
/-! DEFINITION. One arm per constructor of Instr, each one direct call of its meaning. -/

namespace Sys2Proof.Machine

def exec (i : Instr) (s : State) : Host.Outcome State Fault Refusal :=
  match i with
  | .nop => Sys2Proof.Machine.execNop s
  | .encode => Sys2Proof.Machine.execEncode s
  | .decode => Sys2Proof.Machine.execDecode s
  | .reserved3 => Sys2Proof.Machine.execReserved3 s
  | .wrSettleMs v => Sys2Proof.Machine.execWrSettleMs v s
  | .wrType v => Sys2Proof.Machine.execWrType v s
  | .wrDlen v => Sys2Proof.Machine.execWrDlen v s
  | .wrd n b => Sys2Proof.Machine.execWrd n b s
  | .wrCmd c => Sys2Proof.Machine.execWrCmd c s
  | .rdStatus => Sys2Proof.Machine.execRdStatus s
  | .rdResult => Sys2Proof.Machine.execRdResult s
  | .rdType => Sys2Proof.Machine.execRdType s
  | .rdDlen => Sys2Proof.Machine.execRdDlen s
  | .rdSettleMs => Sys2Proof.Machine.execRdSettleMs s
  | .rdd n => Sys2Proof.Machine.execRdd n s
  | .frame t d => Sys2Proof.Machine.execFrame t d s
  | .frameSet uu ll ff vv => Sys2Proof.Machine.execFrameSet uu ll ff vv s

end Sys2Proof.Machine
end

