-- ==== Sys2Proof/Machine/Fetch.lean ====
section
/-! DEFINITION. One turn of one agent (R8), and what happens when the outside is silent. Step only calls these. -/

namespace Sys2Proof.Machine

/-- The bytes of a line on the wire's select (log entry 1). -/
def wireBytes (line : List Byte) : Option (List Byte) :=
  match line with
  | [] => none
  | sel :: bs => if sel = selWire then some bs else none

/-- A line no row has the word of. Bytes on the wire arrive whether they make a frame or not (R8, R54), and DECODE rejects
them when it reads them (R90; log entry 12). An access to what does not exist is refused by name (R22, R23, R29, R166,
U10; log entry 17). -/
def undecodedLine (why : Reject) (line : List Byte) (s : State) : Host.Outcome State Fault Refusal :=
  match wireBytes line with
  | some bs => arrive bs s
  | none => .refused (.badAccess why)

/-- The host's turn: its line is decoded and the access made. -/
def hostTurn (line : List Byte) (s : State) : Host.Outcome State Fault Refusal :=
  match decodeLine line with
  | .ok i => exec i s
  | .error why => undecodedLine why line s

/-- One turn of the agent it names, on a state whose agenda no longer holds it (R8). -/
def takeTurn (t : Turn) (s : State) : Host.Outcome State Fault Refusal :=
  match t with
  | .host line => hostTurn line s
  | .codec => codecStep s
  | .rx bs => arrive bs s
  | .rxErr level => .next { s with rxErr := level }
  | .tick => .next (clockTick s)
  | .txAcc a => .next { s with txNext := a }
  | .reset => .next (blockReset s)

/-- The outside is silent: the clock ticks while TMR counts, otherwise the codec takes its step if it has one, otherwise
nothing changes (U16, U18, R131). DESIGN CHOICE, log entry 4. -/
def quietStep (s : State) : Host.Outcome State Fault Refusal :=
  if s.phase = .rxSettle ∧ s.tmr ≠ 0 then .next (clockTick s) else codecStep s

/-- The turn at the head of the agenda, taken off it first; with no turn left, the quiet step (log entry 3). -/
def nextTurn (s : State) : Host.Outcome State Fault Refusal :=
  match s.agenda with
  | [] => quietStep s
  | t :: rest => takeTurn t (withAgenda rest s)

/-- The host line `line` becomes the very next turn. -/
def placeLine (line : List Byte) (s : State) : State :=
  withAgenda (.host line :: s.agenda) s

end Sys2Proof.Machine
end

