-- ==== Sys2Proof/Machine/Step.lean ====
section
/-! DEFINITION. One step of the machine: one turn of one agent. -/

namespace Sys2Proof.Machine

/-- One step: the next turn of the agenda, or the quiet step (R8; log entries 3 and 4). -/
def step (s : State) : Host.Outcome State Fault Refusal :=
  nextTurn s

/-- The line of an opcode-table word, placed as the host's next turn (log entries 2 and 3). -/
def State.withFetchWord (s : State) (nbits w : Nat) : State :=
  placeLine (tableLine nbits w) s

end Sys2Proof.Machine
end

