-- ==== Sys2Proof/Laws/State.lean ====
section
/-! SUPPORT. One lemma per field per update of State, so that no proof unfolds a record update. -/

namespace Sys2Proof.Machine

/-! ### fbSet -/

@[simp] theorem fbSet_phase (a : Nat) (b : Byte) (s : State) : (fbSet a b s).phase = s.phase := rfl
@[simp] theorem fbSet_busy (a : Nat) (b : Byte) (s : State) : (fbSet a b s).busy = s.busy := rfl
@[simp] theorem fbSet_done (a : Nat) (b : Byte) (s : State) : (fbSet a b s).done = s.done := rfl
@[simp] theorem fbSet_result (a : Nat) (b : Byte) (s : State) : (fbSet a b s).result = s.result := rfl
@[simp] theorem fbSet_typ (a : Nat) (b : Byte) (s : State) : (fbSet a b s).typ = s.typ := rfl
@[simp] theorem fbSet_dlen (a : Nat) (b : Byte) (s : State) : (fbSet a b s).dlen = s.dlen := rfl
@[simp] theorem fbSet_settleMs (a : Nat) (b : Byte) (s : State) : (fbSet a b s).settleMs = s.settleMs := rfl
@[simp] theorem fbSet_tmr (a : Nat) (b : Byte) (s : State) : (fbSet a b s).tmr = s.tmr := rfl
@[simp] theorem fbSet_sum (a : Nat) (b : Byte) (s : State) : (fbSet a b s).sum = s.sum := rfl
@[simp] theorem fbSet_fb (a : Nat) (b : Byte) (s : State) : (fbSet a b s).fb = Memory.insert s.fb a b := rfl
@[simp] theorem fbSet_rxq (a : Nat) (b : Byte) (s : State) : (fbSet a b s).rxq = s.rxq := rfl
@[simp] theorem fbSet_rxErr (a : Nat) (b : Byte) (s : State) : (fbSet a b s).rxErr = s.rxErr := rfl
@[simp] theorem fbSet_txw (a : Nat) (b : Byte) (s : State) : (fbSet a b s).txw = s.txw := rfl
@[simp] theorem fbSet_rdata (a : Nat) (b : Byte) (s : State) : (fbSet a b s).rdata = s.rdata := rfl
@[simp] theorem fbSet_agenda (a : Nat) (b : Byte) (s : State) : (fbSet a b s).agenda = s.agenda := rfl
@[simp] theorem fbSet_txNext (a : Nat) (b : Byte) (s : State) : (fbSet a b s).txNext = s.txNext := rfl
@[simp] theorem fbSet_hdrGen (a : Nat) (b : Byte) (s : State) : (fbSet a b s).hdrGen = s.hdrGen := rfl
@[simp] theorem fbSet_dataGen (a : Nat) (b : Byte) (s : State) : (fbSet a b s).dataGen = s.dataGen := rfl
@[simp] theorem fbSet_draws (a : Nat) (b : Byte) (s : State) : (fbSet a b s).draws = s.draws := rfl

/-! ### rxDrop -/

@[simp] theorem rxDrop_phase (n : Nat) (s : State) : (rxDrop n s).phase = s.phase := rfl
@[simp] theorem rxDrop_busy (n : Nat) (s : State) : (rxDrop n s).busy = s.busy := rfl
@[simp] theorem rxDrop_done (n : Nat) (s : State) : (rxDrop n s).done = s.done := rfl
@[simp] theorem rxDrop_result (n : Nat) (s : State) : (rxDrop n s).result = s.result := rfl
@[simp] theorem rxDrop_typ (n : Nat) (s : State) : (rxDrop n s).typ = s.typ := rfl
@[simp] theorem rxDrop_dlen (n : Nat) (s : State) : (rxDrop n s).dlen = s.dlen := rfl
@[simp] theorem rxDrop_settleMs (n : Nat) (s : State) : (rxDrop n s).settleMs = s.settleMs := rfl
@[simp] theorem rxDrop_tmr (n : Nat) (s : State) : (rxDrop n s).tmr = s.tmr := rfl
@[simp] theorem rxDrop_sum (n : Nat) (s : State) : (rxDrop n s).sum = s.sum := rfl
@[simp] theorem rxDrop_fb (n : Nat) (s : State) : (rxDrop n s).fb = s.fb := rfl
@[simp] theorem rxDrop_rxq (n : Nat) (s : State) : (rxDrop n s).rxq = s.rxq.drop n := rfl
@[simp] theorem rxDrop_rxErr (n : Nat) (s : State) : (rxDrop n s).rxErr = s.rxErr := rfl
@[simp] theorem rxDrop_txw (n : Nat) (s : State) : (rxDrop n s).txw = s.txw := rfl
@[simp] theorem rxDrop_rdata (n : Nat) (s : State) : (rxDrop n s).rdata = s.rdata := rfl
@[simp] theorem rxDrop_agenda (n : Nat) (s : State) : (rxDrop n s).agenda = s.agenda := rfl
@[simp] theorem rxDrop_txNext (n : Nat) (s : State) : (rxDrop n s).txNext = s.txNext := rfl
@[simp] theorem rxDrop_hdrGen (n : Nat) (s : State) : (rxDrop n s).hdrGen = s.hdrGen := rfl
@[simp] theorem rxDrop_dataGen (n : Nat) (s : State) : (rxDrop n s).dataGen = s.dataGen := rfl
@[simp] theorem rxDrop_draws (n : Nat) (s : State) : (rxDrop n s).draws = s.draws := rfl

/-! ### txAppend -/

@[simp] theorem txAppend_phase (bs : List Byte) (k : Nat) (s : State) : (txAppend bs k s).phase = s.phase := rfl
@[simp] theorem txAppend_busy (bs : List Byte) (k : Nat) (s : State) : (txAppend bs k s).busy = s.busy := rfl
@[simp] theorem txAppend_done (bs : List Byte) (k : Nat) (s : State) : (txAppend bs k s).done = s.done := rfl
@[simp] theorem txAppend_result (bs : List Byte) (k : Nat) (s : State) : (txAppend bs k s).result = s.result := rfl
@[simp] theorem txAppend_typ (bs : List Byte) (k : Nat) (s : State) : (txAppend bs k s).typ = s.typ := rfl
@[simp] theorem txAppend_dlen (bs : List Byte) (k : Nat) (s : State) : (txAppend bs k s).dlen = s.dlen := rfl
@[simp] theorem txAppend_settleMs (bs : List Byte) (k : Nat) (s : State) : (txAppend bs k s).settleMs = s.settleMs := rfl
@[simp] theorem txAppend_tmr (bs : List Byte) (k : Nat) (s : State) : (txAppend bs k s).tmr = s.tmr := rfl
@[simp] theorem txAppend_sum (bs : List Byte) (k : Nat) (s : State) : (txAppend bs k s).sum = s.sum := rfl
@[simp] theorem txAppend_fb (bs : List Byte) (k : Nat) (s : State) : (txAppend bs k s).fb = s.fb := rfl
@[simp] theorem txAppend_rxq (bs : List Byte) (k : Nat) (s : State) : (txAppend bs k s).rxq = s.rxq := rfl
@[simp] theorem txAppend_rxErr (bs : List Byte) (k : Nat) (s : State) : (txAppend bs k s).rxErr = s.rxErr := rfl
@[simp] theorem txAppend_txw (bs : List Byte) (k : Nat) (s : State) : (txAppend bs k s).txw = s.txw ++ bs.take k := rfl
@[simp] theorem txAppend_rdata (bs : List Byte) (k : Nat) (s : State) : (txAppend bs k s).rdata = s.rdata := rfl
@[simp] theorem txAppend_agenda (bs : List Byte) (k : Nat) (s : State) : (txAppend bs k s).agenda = s.agenda := rfl
@[simp] theorem txAppend_txNext (bs : List Byte) (k : Nat) (s : State) : (txAppend bs k s).txNext = .free := rfl
@[simp] theorem txAppend_hdrGen (bs : List Byte) (k : Nat) (s : State) : (txAppend bs k s).hdrGen = s.hdrGen := rfl
@[simp] theorem txAppend_dataGen (bs : List Byte) (k : Nat) (s : State) : (txAppend bs k s).dataGen = s.dataGen := rfl
@[simp] theorem txAppend_draws (bs : List Byte) (k : Nat) (s : State) : (txAppend bs k s).draws = s.draws + 1 := rfl

/-! ### finish -/

@[simp] theorem finish_phase (k : Kind) (s : State) : (finish k s).phase = .idle := rfl
@[simp] theorem finish_busy (k : Kind) (s : State) : (finish k s).busy = false := rfl
@[simp] theorem finish_done (k : Kind) (s : State) : (finish k s).done = true := rfl
@[simp] theorem finish_result (k : Kind) (s : State) : (finish k s).result = k.code := rfl
@[simp] theorem finish_typ (k : Kind) (s : State) : (finish k s).typ = s.typ := rfl
@[simp] theorem finish_dlen (k : Kind) (s : State) : (finish k s).dlen = s.dlen := rfl
@[simp] theorem finish_settleMs (k : Kind) (s : State) : (finish k s).settleMs = s.settleMs := rfl
@[simp] theorem finish_tmr (k : Kind) (s : State) : (finish k s).tmr = s.tmr := rfl
@[simp] theorem finish_sum (k : Kind) (s : State) : (finish k s).sum = s.sum := rfl
@[simp] theorem finish_fb (k : Kind) (s : State) : (finish k s).fb = s.fb := rfl
@[simp] theorem finish_rxq (k : Kind) (s : State) : (finish k s).rxq = s.rxq := rfl
@[simp] theorem finish_rxErr (k : Kind) (s : State) : (finish k s).rxErr = s.rxErr := rfl
@[simp] theorem finish_txw (k : Kind) (s : State) : (finish k s).txw = s.txw := rfl
@[simp] theorem finish_rdata (k : Kind) (s : State) : (finish k s).rdata = s.rdata := rfl
@[simp] theorem finish_agenda (k : Kind) (s : State) : (finish k s).agenda = s.agenda := rfl
@[simp] theorem finish_txNext (k : Kind) (s : State) : (finish k s).txNext = s.txNext := rfl
@[simp] theorem finish_hdrGen (k : Kind) (s : State) : (finish k s).hdrGen = s.hdrGen := rfl
@[simp] theorem finish_dataGen (k : Kind) (s : State) : (finish k s).dataGen = s.dataGen := rfl
@[simp] theorem finish_draws (k : Kind) (s : State) : (finish k s).draws = s.draws := rfl

/-! ### forgetSum -/

@[simp] theorem forgetSum_phase (s : State) : (forgetSum s).phase = s.phase := rfl
@[simp] theorem forgetSum_busy (s : State) : (forgetSum s).busy = s.busy := rfl
@[simp] theorem forgetSum_done (s : State) : (forgetSum s).done = s.done := rfl
@[simp] theorem forgetSum_result (s : State) : (forgetSum s).result = s.result := rfl
@[simp] theorem forgetSum_typ (s : State) : (forgetSum s).typ = s.typ := rfl
@[simp] theorem forgetSum_dlen (s : State) : (forgetSum s).dlen = s.dlen := rfl
@[simp] theorem forgetSum_settleMs (s : State) : (forgetSum s).settleMs = s.settleMs := rfl
@[simp] theorem forgetSum_tmr (s : State) : (forgetSum s).tmr = s.tmr := rfl
@[simp] theorem forgetSum_sum (s : State) : (forgetSum s).sum = Config.freeSum s.draws := rfl
@[simp] theorem forgetSum_fb (s : State) : (forgetSum s).fb = s.fb := rfl
@[simp] theorem forgetSum_rxq (s : State) : (forgetSum s).rxq = s.rxq := rfl
@[simp] theorem forgetSum_rxErr (s : State) : (forgetSum s).rxErr = s.rxErr := rfl
@[simp] theorem forgetSum_txw (s : State) : (forgetSum s).txw = s.txw := rfl
@[simp] theorem forgetSum_rdata (s : State) : (forgetSum s).rdata = s.rdata := rfl
@[simp] theorem forgetSum_agenda (s : State) : (forgetSum s).agenda = s.agenda := rfl
@[simp] theorem forgetSum_txNext (s : State) : (forgetSum s).txNext = s.txNext := rfl
@[simp] theorem forgetSum_hdrGen (s : State) : (forgetSum s).hdrGen = s.hdrGen := rfl
@[simp] theorem forgetSum_dataGen (s : State) : (forgetSum s).dataGen = s.dataGen := rfl
@[simp] theorem forgetSum_draws (s : State) : (forgetSum s).draws = s.draws + 1 := rfl

/-! ### forgetHeader -/

@[simp] theorem forgetHeader_phase (s : State) : (forgetHeader s).phase = s.phase := rfl
@[simp] theorem forgetHeader_busy (s : State) : (forgetHeader s).busy = s.busy := rfl
@[simp] theorem forgetHeader_done (s : State) : (forgetHeader s).done = s.done := rfl
@[simp] theorem forgetHeader_result (s : State) : (forgetHeader s).result = s.result := rfl
@[simp] theorem forgetHeader_typ (s : State) : (forgetHeader s).typ = s.typ := rfl
@[simp] theorem forgetHeader_dlen (s : State) : (forgetHeader s).dlen = s.dlen := rfl
@[simp] theorem forgetHeader_settleMs (s : State) : (forgetHeader s).settleMs = s.settleMs := rfl
@[simp] theorem forgetHeader_tmr (s : State) : (forgetHeader s).tmr = s.tmr := rfl
@[simp] theorem forgetHeader_sum (s : State) : (forgetHeader s).sum = s.sum := rfl
@[simp] theorem forgetHeader_fb (s : State) : (forgetHeader s).fb = Memory.keep s.fb Config.frameOverhead Config.fbSize := rfl
@[simp] theorem forgetHeader_rxq (s : State) : (forgetHeader s).rxq = s.rxq := rfl
@[simp] theorem forgetHeader_rxErr (s : State) : (forgetHeader s).rxErr = s.rxErr := rfl
@[simp] theorem forgetHeader_txw (s : State) : (forgetHeader s).txw = s.txw := rfl
@[simp] theorem forgetHeader_rdata (s : State) : (forgetHeader s).rdata = s.rdata := rfl
@[simp] theorem forgetHeader_agenda (s : State) : (forgetHeader s).agenda = s.agenda := rfl
@[simp] theorem forgetHeader_txNext (s : State) : (forgetHeader s).txNext = s.txNext := rfl
@[simp] theorem forgetHeader_hdrGen (s : State) : (forgetHeader s).hdrGen = s.draws := rfl
@[simp] theorem forgetHeader_dataGen (s : State) : (forgetHeader s).dataGen = s.dataGen := rfl
@[simp] theorem forgetHeader_draws (s : State) : (forgetHeader s).draws = s.draws + 1 := rfl

/-! ### forgetAllBut -/

@[simp] theorem forgetAllBut_phase (n : Nat) (s : State) : (forgetAllBut n s).phase = s.phase := rfl
@[simp] theorem forgetAllBut_busy (n : Nat) (s : State) : (forgetAllBut n s).busy = s.busy := rfl
@[simp] theorem forgetAllBut_done (n : Nat) (s : State) : (forgetAllBut n s).done = s.done := rfl
@[simp] theorem forgetAllBut_result (n : Nat) (s : State) : (forgetAllBut n s).result = s.result := rfl
@[simp] theorem forgetAllBut_typ (n : Nat) (s : State) : (forgetAllBut n s).typ = s.typ := rfl
@[simp] theorem forgetAllBut_dlen (n : Nat) (s : State) : (forgetAllBut n s).dlen = s.dlen := rfl
@[simp] theorem forgetAllBut_settleMs (n : Nat) (s : State) : (forgetAllBut n s).settleMs = s.settleMs := rfl
@[simp] theorem forgetAllBut_tmr (n : Nat) (s : State) : (forgetAllBut n s).tmr = s.tmr := rfl
@[simp] theorem forgetAllBut_sum (n : Nat) (s : State) : (forgetAllBut n s).sum = s.sum := rfl
@[simp] theorem forgetAllBut_fb (n : Nat) (s : State) : (forgetAllBut n s).fb = Memory.keep s.fb Config.frameOverhead (Config.frameOverhead + n) := rfl
@[simp] theorem forgetAllBut_rxq (n : Nat) (s : State) : (forgetAllBut n s).rxq = s.rxq := rfl
@[simp] theorem forgetAllBut_rxErr (n : Nat) (s : State) : (forgetAllBut n s).rxErr = s.rxErr := rfl
@[simp] theorem forgetAllBut_txw (n : Nat) (s : State) : (forgetAllBut n s).txw = s.txw := rfl
@[simp] theorem forgetAllBut_rdata (n : Nat) (s : State) : (forgetAllBut n s).rdata = s.rdata := rfl
@[simp] theorem forgetAllBut_agenda (n : Nat) (s : State) : (forgetAllBut n s).agenda = s.agenda := rfl
@[simp] theorem forgetAllBut_txNext (n : Nat) (s : State) : (forgetAllBut n s).txNext = s.txNext := rfl
@[simp] theorem forgetAllBut_hdrGen (n : Nat) (s : State) : (forgetAllBut n s).hdrGen = s.draws := rfl
@[simp] theorem forgetAllBut_dataGen (n : Nat) (s : State) : (forgetAllBut n s).dataGen = s.draws := rfl
@[simp] theorem forgetAllBut_draws (n : Nat) (s : State) : (forgetAllBut n s).draws = s.draws + 1 := rfl

/-! ### forgetResults -/

@[simp] theorem forgetResults_phase (s : State) : (forgetResults s).phase = s.phase := rfl
@[simp] theorem forgetResults_busy (s : State) : (forgetResults s).busy = s.busy := rfl
@[simp] theorem forgetResults_done (s : State) : (forgetResults s).done = s.done := rfl
@[simp] theorem forgetResults_result (s : State) : (forgetResults s).result = s.result := rfl
@[simp] theorem forgetResults_typ (s : State) : (forgetResults s).typ = Config.freeType s.draws := rfl
@[simp] theorem forgetResults_dlen (s : State) : (forgetResults s).dlen = Config.freeDlen s.draws := rfl
@[simp] theorem forgetResults_settleMs (s : State) : (forgetResults s).settleMs = s.settleMs := rfl
@[simp] theorem forgetResults_tmr (s : State) : (forgetResults s).tmr = Config.freeTmr s.draws := rfl
@[simp] theorem forgetResults_sum (s : State) : (forgetResults s).sum = s.sum := rfl
@[simp] theorem forgetResults_fb (s : State) : (forgetResults s).fb = s.fb := rfl
@[simp] theorem forgetResults_rxq (s : State) : (forgetResults s).rxq = s.rxq := rfl
@[simp] theorem forgetResults_rxErr (s : State) : (forgetResults s).rxErr = s.rxErr := rfl
@[simp] theorem forgetResults_txw (s : State) : (forgetResults s).txw = s.txw := rfl
@[simp] theorem forgetResults_rdata (s : State) : (forgetResults s).rdata = s.rdata := rfl
@[simp] theorem forgetResults_agenda (s : State) : (forgetResults s).agenda = s.agenda := rfl
@[simp] theorem forgetResults_txNext (s : State) : (forgetResults s).txNext = s.txNext := rfl
@[simp] theorem forgetResults_hdrGen (s : State) : (forgetResults s).hdrGen = s.hdrGen := rfl
@[simp] theorem forgetResults_dataGen (s : State) : (forgetResults s).dataGen = s.dataGen := rfl
@[simp] theorem forgetResults_draws (s : State) : (forgetResults s).draws = s.draws + 1 := rfl

/-! ### hostRead -/

@[simp] theorem hostRead_phase (v : Word) (s : State) : (hostRead v s).phase = s.phase := rfl
@[simp] theorem hostRead_busy (v : Word) (s : State) : (hostRead v s).busy = s.busy := rfl
@[simp] theorem hostRead_done (v : Word) (s : State) : (hostRead v s).done = s.done := rfl
@[simp] theorem hostRead_result (v : Word) (s : State) : (hostRead v s).result = s.result := rfl
@[simp] theorem hostRead_typ (v : Word) (s : State) : (hostRead v s).typ = s.typ := rfl
@[simp] theorem hostRead_dlen (v : Word) (s : State) : (hostRead v s).dlen = s.dlen := rfl
@[simp] theorem hostRead_settleMs (v : Word) (s : State) : (hostRead v s).settleMs = s.settleMs := rfl
@[simp] theorem hostRead_tmr (v : Word) (s : State) : (hostRead v s).tmr = s.tmr := rfl
@[simp] theorem hostRead_sum (v : Word) (s : State) : (hostRead v s).sum = s.sum := rfl
@[simp] theorem hostRead_fb (v : Word) (s : State) : (hostRead v s).fb = s.fb := rfl
@[simp] theorem hostRead_rxq (v : Word) (s : State) : (hostRead v s).rxq = s.rxq := rfl
@[simp] theorem hostRead_rxErr (v : Word) (s : State) : (hostRead v s).rxErr = s.rxErr := rfl
@[simp] theorem hostRead_txw (v : Word) (s : State) : (hostRead v s).txw = s.txw := rfl
@[simp] theorem hostRead_rdata (v : Word) (s : State) : (hostRead v s).rdata = v := rfl
@[simp] theorem hostRead_agenda (v : Word) (s : State) : (hostRead v s).agenda = s.agenda := rfl
@[simp] theorem hostRead_txNext (v : Word) (s : State) : (hostRead v s).txNext = s.txNext := rfl
@[simp] theorem hostRead_hdrGen (v : Word) (s : State) : (hostRead v s).hdrGen = s.hdrGen := rfl
@[simp] theorem hostRead_dataGen (v : Word) (s : State) : (hostRead v s).dataGen = s.dataGen := rfl
@[simp] theorem hostRead_draws (v : Word) (s : State) : (hostRead v s).draws = s.draws := rfl

/-! ### withAgenda -/

@[simp] theorem withAgenda_phase (l : List Turn) (s : State) : (withAgenda l s).phase = s.phase := rfl
@[simp] theorem withAgenda_busy (l : List Turn) (s : State) : (withAgenda l s).busy = s.busy := rfl
@[simp] theorem withAgenda_done (l : List Turn) (s : State) : (withAgenda l s).done = s.done := rfl
@[simp] theorem withAgenda_result (l : List Turn) (s : State) : (withAgenda l s).result = s.result := rfl
@[simp] theorem withAgenda_typ (l : List Turn) (s : State) : (withAgenda l s).typ = s.typ := rfl
@[simp] theorem withAgenda_dlen (l : List Turn) (s : State) : (withAgenda l s).dlen = s.dlen := rfl
@[simp] theorem withAgenda_settleMs (l : List Turn) (s : State) : (withAgenda l s).settleMs = s.settleMs := rfl
@[simp] theorem withAgenda_tmr (l : List Turn) (s : State) : (withAgenda l s).tmr = s.tmr := rfl
@[simp] theorem withAgenda_sum (l : List Turn) (s : State) : (withAgenda l s).sum = s.sum := rfl
@[simp] theorem withAgenda_fb (l : List Turn) (s : State) : (withAgenda l s).fb = s.fb := rfl
@[simp] theorem withAgenda_rxq (l : List Turn) (s : State) : (withAgenda l s).rxq = s.rxq := rfl
@[simp] theorem withAgenda_rxErr (l : List Turn) (s : State) : (withAgenda l s).rxErr = s.rxErr := rfl
@[simp] theorem withAgenda_txw (l : List Turn) (s : State) : (withAgenda l s).txw = s.txw := rfl
@[simp] theorem withAgenda_rdata (l : List Turn) (s : State) : (withAgenda l s).rdata = s.rdata := rfl
@[simp] theorem withAgenda_agenda (l : List Turn) (s : State) : (withAgenda l s).agenda = l := rfl
@[simp] theorem withAgenda_txNext (l : List Turn) (s : State) : (withAgenda l s).txNext = s.txNext := rfl
@[simp] theorem withAgenda_hdrGen (l : List Turn) (s : State) : (withAgenda l s).hdrGen = s.hdrGen := rfl
@[simp] theorem withAgenda_dataGen (l : List Turn) (s : State) : (withAgenda l s).dataGen = s.dataGen := rfl
@[simp] theorem withAgenda_draws (l : List Turn) (s : State) : (withAgenda l s).draws = s.draws := rfl

/-! ### placeLine -/

@[simp] theorem placeLine_phase (line : List Byte) (s : State) : (placeLine line s).phase = s.phase := rfl
@[simp] theorem placeLine_busy (line : List Byte) (s : State) : (placeLine line s).busy = s.busy := rfl
@[simp] theorem placeLine_done (line : List Byte) (s : State) : (placeLine line s).done = s.done := rfl
@[simp] theorem placeLine_result (line : List Byte) (s : State) : (placeLine line s).result = s.result := rfl
@[simp] theorem placeLine_typ (line : List Byte) (s : State) : (placeLine line s).typ = s.typ := rfl
@[simp] theorem placeLine_dlen (line : List Byte) (s : State) : (placeLine line s).dlen = s.dlen := rfl
@[simp] theorem placeLine_settleMs (line : List Byte) (s : State) : (placeLine line s).settleMs = s.settleMs := rfl
@[simp] theorem placeLine_tmr (line : List Byte) (s : State) : (placeLine line s).tmr = s.tmr := rfl
@[simp] theorem placeLine_sum (line : List Byte) (s : State) : (placeLine line s).sum = s.sum := rfl
@[simp] theorem placeLine_fb (line : List Byte) (s : State) : (placeLine line s).fb = s.fb := rfl
@[simp] theorem placeLine_rxq (line : List Byte) (s : State) : (placeLine line s).rxq = s.rxq := rfl
@[simp] theorem placeLine_rxErr (line : List Byte) (s : State) : (placeLine line s).rxErr = s.rxErr := rfl
@[simp] theorem placeLine_txw (line : List Byte) (s : State) : (placeLine line s).txw = s.txw := rfl
@[simp] theorem placeLine_rdata (line : List Byte) (s : State) : (placeLine line s).rdata = s.rdata := rfl
@[simp] theorem placeLine_agenda (line : List Byte) (s : State) : (placeLine line s).agenda = .host line :: s.agenda := rfl
@[simp] theorem placeLine_txNext (line : List Byte) (s : State) : (placeLine line s).txNext = s.txNext := rfl
@[simp] theorem placeLine_hdrGen (line : List Byte) (s : State) : (placeLine line s).hdrGen = s.hdrGen := rfl
@[simp] theorem placeLine_dataGen (line : List Byte) (s : State) : (placeLine line s).dataGen = s.dataGen := rfl
@[simp] theorem placeLine_draws (line : List Byte) (s : State) : (placeLine line s).draws = s.draws := rfl

/-! ### failDecode: every field but the free values and their bookkeeping -/

@[simp] theorem failDecode_phase (k : Kind) (s : State) : (failDecode k s).phase = .idle := rfl
@[simp] theorem failDecode_busy (k : Kind) (s : State) : (failDecode k s).busy = false := rfl
@[simp] theorem failDecode_done (k : Kind) (s : State) : (failDecode k s).done = true := rfl
@[simp] theorem failDecode_result (k : Kind) (s : State) : (failDecode k s).result = k.code := rfl
@[simp] theorem failDecode_settleMs (k : Kind) (s : State) : (failDecode k s).settleMs = s.settleMs := rfl
@[simp] theorem failDecode_fb (k : Kind) (s : State) : (failDecode k s).fb = Memory.keep s.fb Config.frameOverhead (Config.frameOverhead + 0) := rfl
@[simp] theorem failDecode_rxq (k : Kind) (s : State) : (failDecode k s).rxq = s.rxq := rfl
@[simp] theorem failDecode_rxErr (k : Kind) (s : State) : (failDecode k s).rxErr = s.rxErr := rfl
@[simp] theorem failDecode_txw (k : Kind) (s : State) : (failDecode k s).txw = s.txw := rfl
@[simp] theorem failDecode_rdata (k : Kind) (s : State) : (failDecode k s).rdata = s.rdata := rfl
@[simp] theorem failDecode_agenda (k : Kind) (s : State) : (failDecode k s).agenda = s.agenda := rfl
@[simp] theorem failDecode_txNext (k : Kind) (s : State) : (failDecode k s).txNext = s.txNext := rfl

/-! ### deliver: every field but the free values and their bookkeeping -/

@[simp] theorem deliver_phase (t : Byte) (n : Nat) (s : State) : (deliver t n s).phase = .idle := rfl
@[simp] theorem deliver_busy (t : Byte) (n : Nat) (s : State) : (deliver t n s).busy = false := rfl
@[simp] theorem deliver_done (t : Byte) (n : Nat) (s : State) : (deliver t n s).done = true := rfl
@[simp] theorem deliver_result (t : Byte) (n : Nat) (s : State) : (deliver t n s).result = Kind.ok.code := rfl
@[simp] theorem deliver_typ (t : Byte) (n : Nat) (s : State) : (deliver t n s).typ = t := rfl
@[simp] theorem deliver_dlen (t : Byte) (n : Nat) (s : State) : (deliver t n s).dlen = BitVec.ofNat 8 n := rfl
@[simp] theorem deliver_settleMs (t : Byte) (n : Nat) (s : State) : (deliver t n s).settleMs = s.settleMs := rfl
@[simp] theorem deliver_tmr (t : Byte) (n : Nat) (s : State) : (deliver t n s).tmr = s.tmr := rfl
@[simp] theorem deliver_fb (t : Byte) (n : Nat) (s : State) : (deliver t n s).fb = Memory.keep s.fb Config.frameOverhead (Config.frameOverhead + n) := rfl
@[simp] theorem deliver_rxq (t : Byte) (n : Nat) (s : State) : (deliver t n s).rxq = s.rxq := rfl
@[simp] theorem deliver_rxErr (t : Byte) (n : Nat) (s : State) : (deliver t n s).rxErr = s.rxErr := rfl
@[simp] theorem deliver_txw (t : Byte) (n : Nat) (s : State) : (deliver t n s).txw = s.txw := rfl
@[simp] theorem deliver_rdata (t : Byte) (n : Nat) (s : State) : (deliver t n s).rdata = s.rdata := rfl
@[simp] theorem deliver_agenda (t : Byte) (n : Nat) (s : State) : (deliver t n s).agenda = s.agenda := rfl
@[simp] theorem deliver_txNext (t : Byte) (n : Nat) (s : State) : (deliver t n s).txNext = s.txNext := rfl

/-! ### endEncode: every field but the free values and their bookkeeping -/

@[simp] theorem endEncode_phase (k : Kind) (s : State) : (endEncode k s).phase = .idle := rfl
@[simp] theorem endEncode_busy (k : Kind) (s : State) : (endEncode k s).busy = false := rfl
@[simp] theorem endEncode_done (k : Kind) (s : State) : (endEncode k s).done = true := rfl
@[simp] theorem endEncode_result (k : Kind) (s : State) : (endEncode k s).result = k.code := rfl
@[simp] theorem endEncode_typ (k : Kind) (s : State) : (endEncode k s).typ = s.typ := rfl
@[simp] theorem endEncode_dlen (k : Kind) (s : State) : (endEncode k s).dlen = s.dlen := rfl
@[simp] theorem endEncode_settleMs (k : Kind) (s : State) : (endEncode k s).settleMs = s.settleMs := rfl
@[simp] theorem endEncode_tmr (k : Kind) (s : State) : (endEncode k s).tmr = s.tmr := rfl
@[simp] theorem endEncode_fb (k : Kind) (s : State) : (endEncode k s).fb = Memory.keep s.fb Config.frameOverhead Config.fbSize := rfl
@[simp] theorem endEncode_rxq (k : Kind) (s : State) : (endEncode k s).rxq = s.rxq := rfl
@[simp] theorem endEncode_rxErr (k : Kind) (s : State) : (endEncode k s).rxErr = s.rxErr := rfl
@[simp] theorem endEncode_txw (k : Kind) (s : State) : (endEncode k s).txw = s.txw := rfl
@[simp] theorem endEncode_rdata (k : Kind) (s : State) : (endEncode k s).rdata = s.rdata := rfl
@[simp] theorem endEncode_agenda (k : Kind) (s : State) : (endEncode k s).agenda = s.agenda := rfl
@[simp] theorem endEncode_txNext (k : Kind) (s : State) : (endEncode k s).txNext = s.txNext := rfl
@[simp] theorem endEncode_dataGen (k : Kind) (s : State) : (endEncode k s).dataGen = s.dataGen := rfl

/-! ### takeCommand: the fields it never changes -/

@[simp] theorem takeCommand_result (c : BitVec 2) (s : State) : (takeCommand c s).result = s.result := by
  unfold takeCommand; split_ifs <;> rfl
@[simp] theorem takeCommand_typ (c : BitVec 2) (s : State) : (takeCommand c s).typ = s.typ := by
  unfold takeCommand; split_ifs <;> rfl
@[simp] theorem takeCommand_dlen (c : BitVec 2) (s : State) : (takeCommand c s).dlen = s.dlen := by
  unfold takeCommand; split_ifs <;> rfl
@[simp] theorem takeCommand_settleMs (c : BitVec 2) (s : State) : (takeCommand c s).settleMs = s.settleMs := by
  unfold takeCommand; split_ifs <;> rfl
@[simp] theorem takeCommand_tmr (c : BitVec 2) (s : State) : (takeCommand c s).tmr = s.tmr := by
  unfold takeCommand; split_ifs <;> rfl
@[simp] theorem takeCommand_sum (c : BitVec 2) (s : State) : (takeCommand c s).sum = s.sum := by
  unfold takeCommand; split_ifs <;> rfl
@[simp] theorem takeCommand_fb (c : BitVec 2) (s : State) : (takeCommand c s).fb = s.fb := by
  unfold takeCommand; split_ifs <;> rfl
@[simp] theorem takeCommand_rxq (c : BitVec 2) (s : State) : (takeCommand c s).rxq = s.rxq := by
  unfold takeCommand; split_ifs <;> rfl
@[simp] theorem takeCommand_rxErr (c : BitVec 2) (s : State) : (takeCommand c s).rxErr = s.rxErr := by
  unfold takeCommand; split_ifs <;> rfl
@[simp] theorem takeCommand_txw (c : BitVec 2) (s : State) : (takeCommand c s).txw = s.txw := by
  unfold takeCommand; split_ifs <;> rfl
@[simp] theorem takeCommand_rdata (c : BitVec 2) (s : State) : (takeCommand c s).rdata = s.rdata := by
  unfold takeCommand; split_ifs <;> rfl
@[simp] theorem takeCommand_agenda (c : BitVec 2) (s : State) : (takeCommand c s).agenda = s.agenda := by
  unfold takeCommand; split_ifs <;> rfl
@[simp] theorem takeCommand_txNext (c : BitVec 2) (s : State) : (takeCommand c s).txNext = s.txNext := by
  unfold takeCommand; split_ifs <;> rfl
@[simp] theorem takeCommand_hdrGen (c : BitVec 2) (s : State) : (takeCommand c s).hdrGen = s.hdrGen := by
  unfold takeCommand; split_ifs <;> rfl
@[simp] theorem takeCommand_dataGen (c : BitVec 2) (s : State) : (takeCommand c s).dataGen = s.dataGen := by
  unfold takeCommand; split_ifs <;> rfl
@[simp] theorem takeCommand_draws (c : BitVec 2) (s : State) : (takeCommand c s).draws = s.draws := by
  unfold takeCommand; split_ifs <;> rfl

/-! ### clockTick: the fields it never changes -/

@[simp] theorem clockTick_phase (s : State) : (clockTick s).phase = s.phase := by
  unfold clockTick; split_ifs <;> rfl
@[simp] theorem clockTick_busy (s : State) : (clockTick s).busy = s.busy := by
  unfold clockTick; split_ifs <;> rfl
@[simp] theorem clockTick_done (s : State) : (clockTick s).done = s.done := by
  unfold clockTick; split_ifs <;> rfl
@[simp] theorem clockTick_result (s : State) : (clockTick s).result = s.result := by
  unfold clockTick; split_ifs <;> rfl
@[simp] theorem clockTick_typ (s : State) : (clockTick s).typ = s.typ := by
  unfold clockTick; split_ifs <;> rfl
@[simp] theorem clockTick_dlen (s : State) : (clockTick s).dlen = s.dlen := by
  unfold clockTick; split_ifs <;> rfl
@[simp] theorem clockTick_settleMs (s : State) : (clockTick s).settleMs = s.settleMs := by
  unfold clockTick; split_ifs <;> rfl
@[simp] theorem clockTick_sum (s : State) : (clockTick s).sum = s.sum := by
  unfold clockTick; split_ifs <;> rfl
@[simp] theorem clockTick_fb (s : State) : (clockTick s).fb = s.fb := by
  unfold clockTick; split_ifs <;> rfl
@[simp] theorem clockTick_rxq (s : State) : (clockTick s).rxq = s.rxq := by
  unfold clockTick; split_ifs <;> rfl
@[simp] theorem clockTick_rxErr (s : State) : (clockTick s).rxErr = s.rxErr := by
  unfold clockTick; split_ifs <;> rfl
@[simp] theorem clockTick_txw (s : State) : (clockTick s).txw = s.txw := by
  unfold clockTick; split_ifs <;> rfl
@[simp] theorem clockTick_rdata (s : State) : (clockTick s).rdata = s.rdata := by
  unfold clockTick; split_ifs <;> rfl
@[simp] theorem clockTick_agenda (s : State) : (clockTick s).agenda = s.agenda := by
  unfold clockTick; split_ifs <;> rfl
@[simp] theorem clockTick_txNext (s : State) : (clockTick s).txNext = s.txNext := by
  unfold clockTick; split_ifs <;> rfl
@[simp] theorem clockTick_hdrGen (s : State) : (clockTick s).hdrGen = s.hdrGen := by
  unfold clockTick; split_ifs <;> rfl
@[simp] theorem clockTick_dataGen (s : State) : (clockTick s).dataGen = s.dataGen := by
  unfold clockTick; split_ifs <;> rfl
@[simp] theorem clockTick_draws (s : State) : (clockTick s).draws = s.draws := by
  unfold clockTick; split_ifs <;> rfl

/-! ### writeType: the fields it never changes -/

@[simp] theorem writeType_phase (v : Byte) (s : State) : (writeType v s).phase = s.phase := by
  unfold writeType hostWrite; split_ifs <;> rfl
@[simp] theorem writeType_busy (v : Byte) (s : State) : (writeType v s).busy = s.busy := by
  unfold writeType hostWrite; split_ifs <;> rfl
@[simp] theorem writeType_done (v : Byte) (s : State) : (writeType v s).done = s.done := by
  unfold writeType hostWrite; split_ifs <;> rfl
@[simp] theorem writeType_result (v : Byte) (s : State) : (writeType v s).result = s.result := by
  unfold writeType hostWrite; split_ifs <;> rfl
@[simp] theorem writeType_dlen (v : Byte) (s : State) : (writeType v s).dlen = s.dlen := by
  unfold writeType hostWrite; split_ifs <;> rfl
@[simp] theorem writeType_settleMs (v : Byte) (s : State) : (writeType v s).settleMs = s.settleMs := by
  unfold writeType hostWrite; split_ifs <;> rfl
@[simp] theorem writeType_tmr (v : Byte) (s : State) : (writeType v s).tmr = s.tmr := by
  unfold writeType hostWrite; split_ifs <;> rfl
@[simp] theorem writeType_sum (v : Byte) (s : State) : (writeType v s).sum = s.sum := by
  unfold writeType hostWrite; split_ifs <;> rfl
@[simp] theorem writeType_fb (v : Byte) (s : State) : (writeType v s).fb = s.fb := by
  unfold writeType hostWrite; split_ifs <;> rfl
@[simp] theorem writeType_rxq (v : Byte) (s : State) : (writeType v s).rxq = s.rxq := by
  unfold writeType hostWrite; split_ifs <;> rfl
@[simp] theorem writeType_rxErr (v : Byte) (s : State) : (writeType v s).rxErr = s.rxErr := by
  unfold writeType hostWrite; split_ifs <;> rfl
@[simp] theorem writeType_txw (v : Byte) (s : State) : (writeType v s).txw = s.txw := by
  unfold writeType hostWrite; split_ifs <;> rfl
@[simp] theorem writeType_rdata (v : Byte) (s : State) : (writeType v s).rdata = s.rdata := by
  unfold writeType hostWrite; split_ifs <;> rfl
@[simp] theorem writeType_agenda (v : Byte) (s : State) : (writeType v s).agenda = s.agenda := by
  unfold writeType hostWrite; split_ifs <;> rfl
@[simp] theorem writeType_txNext (v : Byte) (s : State) : (writeType v s).txNext = s.txNext := by
  unfold writeType hostWrite; split_ifs <;> rfl
@[simp] theorem writeType_hdrGen (v : Byte) (s : State) : (writeType v s).hdrGen = s.hdrGen := by
  unfold writeType hostWrite; split_ifs <;> rfl
@[simp] theorem writeType_dataGen (v : Byte) (s : State) : (writeType v s).dataGen = s.dataGen := by
  unfold writeType hostWrite; split_ifs <;> rfl
@[simp] theorem writeType_draws (v : Byte) (s : State) : (writeType v s).draws = s.draws := by
  unfold writeType hostWrite; split_ifs <;> rfl

/-! ### writeDlen: the fields it never changes -/

@[simp] theorem writeDlen_phase (v : Byte) (s : State) : (writeDlen v s).phase = s.phase := by
  unfold writeDlen hostWrite; split_ifs <;> rfl
@[simp] theorem writeDlen_busy (v : Byte) (s : State) : (writeDlen v s).busy = s.busy := by
  unfold writeDlen hostWrite; split_ifs <;> rfl
@[simp] theorem writeDlen_done (v : Byte) (s : State) : (writeDlen v s).done = s.done := by
  unfold writeDlen hostWrite; split_ifs <;> rfl
@[simp] theorem writeDlen_result (v : Byte) (s : State) : (writeDlen v s).result = s.result := by
  unfold writeDlen hostWrite; split_ifs <;> rfl
@[simp] theorem writeDlen_typ (v : Byte) (s : State) : (writeDlen v s).typ = s.typ := by
  unfold writeDlen hostWrite; split_ifs <;> rfl
@[simp] theorem writeDlen_settleMs (v : Byte) (s : State) : (writeDlen v s).settleMs = s.settleMs := by
  unfold writeDlen hostWrite; split_ifs <;> rfl
@[simp] theorem writeDlen_tmr (v : Byte) (s : State) : (writeDlen v s).tmr = s.tmr := by
  unfold writeDlen hostWrite; split_ifs <;> rfl
@[simp] theorem writeDlen_sum (v : Byte) (s : State) : (writeDlen v s).sum = s.sum := by
  unfold writeDlen hostWrite; split_ifs <;> rfl
@[simp] theorem writeDlen_fb (v : Byte) (s : State) : (writeDlen v s).fb = s.fb := by
  unfold writeDlen hostWrite; split_ifs <;> rfl
@[simp] theorem writeDlen_rxq (v : Byte) (s : State) : (writeDlen v s).rxq = s.rxq := by
  unfold writeDlen hostWrite; split_ifs <;> rfl
@[simp] theorem writeDlen_rxErr (v : Byte) (s : State) : (writeDlen v s).rxErr = s.rxErr := by
  unfold writeDlen hostWrite; split_ifs <;> rfl
@[simp] theorem writeDlen_txw (v : Byte) (s : State) : (writeDlen v s).txw = s.txw := by
  unfold writeDlen hostWrite; split_ifs <;> rfl
@[simp] theorem writeDlen_rdata (v : Byte) (s : State) : (writeDlen v s).rdata = s.rdata := by
  unfold writeDlen hostWrite; split_ifs <;> rfl
@[simp] theorem writeDlen_agenda (v : Byte) (s : State) : (writeDlen v s).agenda = s.agenda := by
  unfold writeDlen hostWrite; split_ifs <;> rfl
@[simp] theorem writeDlen_txNext (v : Byte) (s : State) : (writeDlen v s).txNext = s.txNext := by
  unfold writeDlen hostWrite; split_ifs <;> rfl
@[simp] theorem writeDlen_hdrGen (v : Byte) (s : State) : (writeDlen v s).hdrGen = s.hdrGen := by
  unfold writeDlen hostWrite; split_ifs <;> rfl
@[simp] theorem writeDlen_dataGen (v : Byte) (s : State) : (writeDlen v s).dataGen = s.dataGen := by
  unfold writeDlen hostWrite; split_ifs <;> rfl
@[simp] theorem writeDlen_draws (v : Byte) (s : State) : (writeDlen v s).draws = s.draws := by
  unfold writeDlen hostWrite; split_ifs <;> rfl

/-! ### writeSettle: the fields it never changes -/

@[simp] theorem writeSettle_phase (v : Word) (s : State) : (writeSettle v s).phase = s.phase := by
  unfold writeSettle hostWrite; split_ifs <;> rfl
@[simp] theorem writeSettle_busy (v : Word) (s : State) : (writeSettle v s).busy = s.busy := by
  unfold writeSettle hostWrite; split_ifs <;> rfl
@[simp] theorem writeSettle_done (v : Word) (s : State) : (writeSettle v s).done = s.done := by
  unfold writeSettle hostWrite; split_ifs <;> rfl
@[simp] theorem writeSettle_result (v : Word) (s : State) : (writeSettle v s).result = s.result := by
  unfold writeSettle hostWrite; split_ifs <;> rfl
@[simp] theorem writeSettle_typ (v : Word) (s : State) : (writeSettle v s).typ = s.typ := by
  unfold writeSettle hostWrite; split_ifs <;> rfl
@[simp] theorem writeSettle_dlen (v : Word) (s : State) : (writeSettle v s).dlen = s.dlen := by
  unfold writeSettle hostWrite; split_ifs <;> rfl
@[simp] theorem writeSettle_tmr (v : Word) (s : State) : (writeSettle v s).tmr = s.tmr := by
  unfold writeSettle hostWrite; split_ifs <;> rfl
@[simp] theorem writeSettle_sum (v : Word) (s : State) : (writeSettle v s).sum = s.sum := by
  unfold writeSettle hostWrite; split_ifs <;> rfl
@[simp] theorem writeSettle_fb (v : Word) (s : State) : (writeSettle v s).fb = s.fb := by
  unfold writeSettle hostWrite; split_ifs <;> rfl
@[simp] theorem writeSettle_rxq (v : Word) (s : State) : (writeSettle v s).rxq = s.rxq := by
  unfold writeSettle hostWrite; split_ifs <;> rfl
@[simp] theorem writeSettle_rxErr (v : Word) (s : State) : (writeSettle v s).rxErr = s.rxErr := by
  unfold writeSettle hostWrite; split_ifs <;> rfl
@[simp] theorem writeSettle_txw (v : Word) (s : State) : (writeSettle v s).txw = s.txw := by
  unfold writeSettle hostWrite; split_ifs <;> rfl
@[simp] theorem writeSettle_rdata (v : Word) (s : State) : (writeSettle v s).rdata = s.rdata := by
  unfold writeSettle hostWrite; split_ifs <;> rfl
@[simp] theorem writeSettle_agenda (v : Word) (s : State) : (writeSettle v s).agenda = s.agenda := by
  unfold writeSettle hostWrite; split_ifs <;> rfl
@[simp] theorem writeSettle_txNext (v : Word) (s : State) : (writeSettle v s).txNext = s.txNext := by
  unfold writeSettle hostWrite; split_ifs <;> rfl
@[simp] theorem writeSettle_hdrGen (v : Word) (s : State) : (writeSettle v s).hdrGen = s.hdrGen := by
  unfold writeSettle hostWrite; split_ifs <;> rfl
@[simp] theorem writeSettle_dataGen (v : Word) (s : State) : (writeSettle v s).dataGen = s.dataGen := by
  unfold writeSettle hostWrite; split_ifs <;> rfl
@[simp] theorem writeSettle_draws (v : Word) (s : State) : (writeSettle v s).draws = s.draws := by
  unfold writeSettle hostWrite; split_ifs <;> rfl

/-! ### writeDbuf: the fields it never changes -/

@[simp] theorem writeDbuf_phase (i : Nat) (b : Byte) (s : State) : (writeDbuf i b s).phase = s.phase := by
  unfold writeDbuf hostWrite; split_ifs <;> rfl
@[simp] theorem writeDbuf_busy (i : Nat) (b : Byte) (s : State) : (writeDbuf i b s).busy = s.busy := by
  unfold writeDbuf hostWrite; split_ifs <;> rfl
@[simp] theorem writeDbuf_done (i : Nat) (b : Byte) (s : State) : (writeDbuf i b s).done = s.done := by
  unfold writeDbuf hostWrite; split_ifs <;> rfl
@[simp] theorem writeDbuf_result (i : Nat) (b : Byte) (s : State) : (writeDbuf i b s).result = s.result := by
  unfold writeDbuf hostWrite; split_ifs <;> rfl
@[simp] theorem writeDbuf_typ (i : Nat) (b : Byte) (s : State) : (writeDbuf i b s).typ = s.typ := by
  unfold writeDbuf hostWrite; split_ifs <;> rfl
@[simp] theorem writeDbuf_dlen (i : Nat) (b : Byte) (s : State) : (writeDbuf i b s).dlen = s.dlen := by
  unfold writeDbuf hostWrite; split_ifs <;> rfl
@[simp] theorem writeDbuf_settleMs (i : Nat) (b : Byte) (s : State) : (writeDbuf i b s).settleMs = s.settleMs := by
  unfold writeDbuf hostWrite; split_ifs <;> rfl
@[simp] theorem writeDbuf_tmr (i : Nat) (b : Byte) (s : State) : (writeDbuf i b s).tmr = s.tmr := by
  unfold writeDbuf hostWrite; split_ifs <;> rfl
@[simp] theorem writeDbuf_sum (i : Nat) (b : Byte) (s : State) : (writeDbuf i b s).sum = s.sum := by
  unfold writeDbuf hostWrite; split_ifs <;> rfl
@[simp] theorem writeDbuf_rxq (i : Nat) (b : Byte) (s : State) : (writeDbuf i b s).rxq = s.rxq := by
  unfold writeDbuf hostWrite; split_ifs <;> rfl
@[simp] theorem writeDbuf_rxErr (i : Nat) (b : Byte) (s : State) : (writeDbuf i b s).rxErr = s.rxErr := by
  unfold writeDbuf hostWrite; split_ifs <;> rfl
@[simp] theorem writeDbuf_txw (i : Nat) (b : Byte) (s : State) : (writeDbuf i b s).txw = s.txw := by
  unfold writeDbuf hostWrite; split_ifs <;> rfl
@[simp] theorem writeDbuf_rdata (i : Nat) (b : Byte) (s : State) : (writeDbuf i b s).rdata = s.rdata := by
  unfold writeDbuf hostWrite; split_ifs <;> rfl
@[simp] theorem writeDbuf_agenda (i : Nat) (b : Byte) (s : State) : (writeDbuf i b s).agenda = s.agenda := by
  unfold writeDbuf hostWrite; split_ifs <;> rfl
@[simp] theorem writeDbuf_txNext (i : Nat) (b : Byte) (s : State) : (writeDbuf i b s).txNext = s.txNext := by
  unfold writeDbuf hostWrite; split_ifs <;> rfl
@[simp] theorem writeDbuf_hdrGen (i : Nat) (b : Byte) (s : State) : (writeDbuf i b s).hdrGen = s.hdrGen := by
  unfold writeDbuf hostWrite; split_ifs <;> rfl
@[simp] theorem writeDbuf_dataGen (i : Nat) (b : Byte) (s : State) : (writeDbuf i b s).dataGen = s.dataGen := by
  unfold writeDbuf hostWrite; split_ifs <;> rfl
@[simp] theorem writeDbuf_draws (i : Nat) (b : Byte) (s : State) : (writeDbuf i b s).draws = s.draws := by
  unfold writeDbuf hostWrite; split_ifs <;> rfl

/-! ### hostReadIdle: the fields it never changes -/

@[simp] theorem hostReadIdle_phase (v free : Word) (s : State) : (hostReadIdle v free s).phase = s.phase := by
  unfold hostReadIdle; split_ifs <;> rfl
@[simp] theorem hostReadIdle_busy (v free : Word) (s : State) : (hostReadIdle v free s).busy = s.busy := by
  unfold hostReadIdle; split_ifs <;> rfl
@[simp] theorem hostReadIdle_done (v free : Word) (s : State) : (hostReadIdle v free s).done = s.done := by
  unfold hostReadIdle; split_ifs <;> rfl
@[simp] theorem hostReadIdle_result (v free : Word) (s : State) : (hostReadIdle v free s).result = s.result := by
  unfold hostReadIdle; split_ifs <;> rfl
@[simp] theorem hostReadIdle_typ (v free : Word) (s : State) : (hostReadIdle v free s).typ = s.typ := by
  unfold hostReadIdle; split_ifs <;> rfl
@[simp] theorem hostReadIdle_dlen (v free : Word) (s : State) : (hostReadIdle v free s).dlen = s.dlen := by
  unfold hostReadIdle; split_ifs <;> rfl
@[simp] theorem hostReadIdle_settleMs (v free : Word) (s : State) : (hostReadIdle v free s).settleMs = s.settleMs := by
  unfold hostReadIdle; split_ifs <;> rfl
@[simp] theorem hostReadIdle_tmr (v free : Word) (s : State) : (hostReadIdle v free s).tmr = s.tmr := by
  unfold hostReadIdle; split_ifs <;> rfl
@[simp] theorem hostReadIdle_sum (v free : Word) (s : State) : (hostReadIdle v free s).sum = s.sum := by
  unfold hostReadIdle; split_ifs <;> rfl
@[simp] theorem hostReadIdle_fb (v free : Word) (s : State) : (hostReadIdle v free s).fb = s.fb := by
  unfold hostReadIdle; split_ifs <;> rfl
@[simp] theorem hostReadIdle_rxq (v free : Word) (s : State) : (hostReadIdle v free s).rxq = s.rxq := by
  unfold hostReadIdle; split_ifs <;> rfl
@[simp] theorem hostReadIdle_rxErr (v free : Word) (s : State) : (hostReadIdle v free s).rxErr = s.rxErr := by
  unfold hostReadIdle; split_ifs <;> rfl
@[simp] theorem hostReadIdle_txw (v free : Word) (s : State) : (hostReadIdle v free s).txw = s.txw := by
  unfold hostReadIdle; split_ifs <;> rfl
@[simp] theorem hostReadIdle_agenda (v free : Word) (s : State) : (hostReadIdle v free s).agenda = s.agenda := by
  unfold hostReadIdle; split_ifs <;> rfl
@[simp] theorem hostReadIdle_txNext (v free : Word) (s : State) : (hostReadIdle v free s).txNext = s.txNext := by
  unfold hostReadIdle; split_ifs <;> rfl
@[simp] theorem hostReadIdle_hdrGen (v free : Word) (s : State) : (hostReadIdle v free s).hdrGen = s.hdrGen := by
  unfold hostReadIdle; split_ifs <;> rfl
@[simp] theorem hostReadIdle_dataGen (v free : Word) (s : State) : (hostReadIdle v free s).dataGen = s.dataGen := by
  unfold hostReadIdle; split_ifs <;> rfl

end Sys2Proof.Machine
end

