-- ==== Sys2Proof/Laws/Memory.lean ====
section
/-! SUPPORT. The frame buffer: what a read finds after a write, an erasure and a run of writes, and that every memory
operation keeps the canonical form. -/

namespace Sys2Proof.Machine

/-! ### Reads after writes -/

theorem Memory.find_insert (m : List Host.Cell) (a k : Nat) (b : Byte) :
    Memory.find (Memory.insert m a b) k = if k = a then some b else Memory.find m k := by
  induction m with
  | nil => simp [Memory.insert, Memory.find, eq_comm]
  | cons c m ih =>
    obtain ⟨j, v⟩ := c
    simp only [Memory.insert]
    split_ifs with h1 h2 h3 h4 <;> simp only [Memory.find, ih] <;> split_ifs <;> first | rfl | omega

theorem Memory.find_insertAll (m : List Host.Cell) (a k : Nat) (bs : List Byte) :
    Memory.find (Memory.insertAll m a bs) k
      = if a ≤ k ∧ k < a + bs.length then bs[k - a]? else Memory.find m k := by
  induction bs generalizing m a with
  | nil => simp only [Memory.insertAll, List.length_nil]; split_ifs <;> first | rfl | omega
  | cons b bs ih =>
    simp only [Memory.insertAll, ih, Memory.find_insert, List.length_cons]
    by_cases hk : k = a
    · subst hk; simp
    · by_cases h : a ≤ k ∧ k < a + (bs.length + 1)
      · rw [if_pos (by omega), if_pos h, show k - a = (k - (a + 1)) + 1 by omega, List.getElem?_cons_succ]
      · rw [if_neg (by omega), if_neg h, if_neg hk]

theorem Memory.find_keep (m : List Host.Cell) (lo hi k : Nat) :
    Memory.find (Memory.keep m lo hi) k = if lo ≤ k ∧ k < hi then Memory.find m k else none := by
  induction m with
  | nil => simp [Memory.keep, Memory.find]
  | cons c m ih =>
    obtain ⟨j, v⟩ := c
    simp only [Memory.keep] at ih
    by_cases hj : lo ≤ j ∧ j < hi
    · simp only [Memory.keep, List.filter_cons, hj, decide_true, Bool.and_self, if_true, Memory.find, ih]
      split_ifs <;> first | rfl | omega
    · have : (decide (lo ≤ j) && decide (j < hi)) = false := by simpa [Bool.and_eq_true] using hj
      simp only [Memory.keep, List.filter_cons, this, Memory.find]
      split_ifs <;> simp_all

/-! ### The canonical form -/

theorem Memory.mem_insert {m : List Host.Cell} {a : Nat} {b : Byte} {c : Host.Cell}
    (h : c ∈ Memory.insert m a b) : c = (a, b) ∨ c ∈ m := by
  induction m with
  | nil => simpa [Memory.insert] using h
  | cons d m ih =>
    obtain ⟨j, v⟩ := d
    simp only [Memory.insert] at h
    split_ifs at h with h1 h2
    · simpa using h
    · rcases List.mem_cons.mp h with h | h
      · exact .inl h
      · exact .inr (List.mem_cons_of_mem _ h)
    · rcases List.mem_cons.mp h with h | h
      · exact .inr (h ▸ List.mem_cons_self)
      · exact (ih h).imp id (List.mem_cons_of_mem _)

theorem Memory.wf_nil : Memory.wf [] := by simp [Memory.wf]

theorem Memory.wf_insert {m : List Host.Cell} {a : Nat} (b : Byte) (hm : Memory.wf m) (ha : a < Config.fbSize) :
    Memory.wf (Memory.insert m a b) := by
  refine ⟨?_, fun c hc => ?_⟩
  · obtain ⟨hp, -⟩ := hm
    induction m with
    | nil => simp [Memory.insert]
    | cons d m ih =>
      obtain ⟨j, v⟩ := d
      obtain ⟨hj, hp⟩ := List.pairwise_cons.mp hp
      simp only [Memory.insert]
      split_ifs with h1 h2
      · refine List.pairwise_cons.mpr ⟨fun c hc => ?_, List.pairwise_cons.mpr ⟨hj, hp⟩⟩
        rcases List.mem_cons.mp hc with rfl | hc
        · exact h1
        · exact lt_trans h1 (hj c hc)
      · exact List.pairwise_cons.mpr ⟨fun c hc => h2 ▸ hj c hc, hp⟩
      · refine List.pairwise_cons.mpr ⟨fun c hc => ?_, ih hp⟩
        rcases Memory.mem_insert hc with rfl | hc
        · show j < a; omega
        · exact hj c hc
  · rcases Memory.mem_insert hc with rfl | hc
    · exact ha
    · exact hm.2 c hc

theorem Memory.wf_insertAll {m : List Host.Cell} {a : Nat} (bs : List Byte) (hm : Memory.wf m)
    (ha : a + bs.length ≤ Config.fbSize) : Memory.wf (Memory.insertAll m a bs) := by
  induction bs generalizing m a with
  | nil => exact hm
  | cons b bs ih =>
    simp only [List.length_cons] at ha
    exact ih (Memory.wf_insert b hm (by omega)) (by omega)

theorem Memory.wf_keep {m : List Host.Cell} (lo hi : Nat) (hm : Memory.wf m) : Memory.wf (Memory.keep m lo hi) :=
  ⟨hm.1.filter _, fun c hc => hm.2 c (List.mem_of_mem_filter hc)⟩

/-- Reset's memory has the canonical form. -/
theorem Memory.wf_reset : Memory.wf State.reset.fb := Memory.wf_nil

/-! ### Bytes of FB -/

theorem fbByte_of_find {s : State} {a : Nat} {b : Byte} (h : Memory.find s.fb a = some b) : fbByte s a = b := by
  simp [fbByte, h]

/-- An unspecified place reads as the free value of its generation (R38). -/
theorem fbByte_of_none {s : State} {a : Nat} (h : Memory.find s.fb a = none) :
    fbByte s a = Config.freeFb (if a < Config.frameOverhead then s.hdrGen else s.dataGen) a := by
  simp only [fbByte, h]

/-- A byte of FB depends on the cells and the two generations alone. -/
theorem fbByte_congr {s t : State} (h : t.fb = s.fb) (h1 : t.hdrGen = s.hdrGen) (h2 : t.dataGen = s.dataGen) :
    fbByte t = fbByte s := by
  funext a; simp [fbByte, h, h1, h2]

theorem fbSlice_congr {s t : State} (h : t.fb = s.fb) (h1 : t.hdrGen = s.hdrGen) (h2 : t.dataGen = s.dataGen) :
    fbSlice t = fbSlice s := by
  funext a n; simp [fbSlice, fbByte_congr h h1 h2]

@[simp] theorem fbByte_fbSet (s : State) (a k : Nat) (b : Byte) :
    fbByte (fbSet a b s) k = if k = a then b else fbByte s k := by
  simp only [fbByte, fbSet, Memory.find_insert]; split_ifs <;> rfl

@[simp] theorem fbSlice_length (s : State) (a n : Nat) : (fbSlice s a n).length = n := by simp [fbSlice]

theorem fbSlice_getElem? (s : State) (a n i : Nat) :
    (fbSlice s a n)[i]? = if i < n then some (fbByte s (a + i)) else none := by
  simp only [fbSlice, List.getElem?_map]
  split_ifs with h
  · simp [List.getElem?_range h]
  · simp [List.getElem?_eq_none (l := List.range n) (by simpa using Nat.le_of_not_lt h)]

/-- Two slices agree where their bytes agree. -/
theorem fbSlice_eq {s t : State} {a n : Nat} (h : ∀ i, i < n → fbByte t (a + i) = fbByte s (a + i)) :
    fbSlice t a n = fbSlice s a n := by
  simp only [fbSlice]; exact List.map_congr_left (fun i hi => h i (List.mem_range.mp hi))

/-- What a run of writes leaves at each index. -/
theorem fbByte_insertAll {s : State} (a k : Nat) (bs : List Byte) :
    fbByte { s with fb := Memory.insertAll s.fb a bs } k
      = if a ≤ k ∧ k < a + bs.length then bs.getD (k - a) 0 else fbByte s k := by
  simp only [fbByte, Memory.find_insertAll]
  by_cases h : a ≤ k ∧ k < a + bs.length
  · simp only [if_pos h, List.getD_eq_getElem?_getD, List.getElem?_eq_getElem (show k - a < bs.length by omega)]; rfl
  · simp only [if_neg h]

/-- A slice just written reads back as the bytes written. -/
theorem fbSlice_insertAll (s : State) (a : Nat) (bs : List Byte) :
    fbSlice { s with fb := Memory.insertAll s.fb a bs } a bs.length = bs := by
  refine List.ext_getElem? (fun i => ?_)
  rw [fbSlice_getElem?]
  split_ifs with h
  · rw [fbByte_insertAll, if_pos (by omega), Nat.add_sub_cancel_left, List.getD_eq_getElem?_getD,
      List.getElem?_eq_getElem h]; rfl
  · exact (List.getElem?_eq_none (by omega)).symm

end Sys2Proof.Machine
end

