-- ==== Sys2Proof/Laws/Ops.lean ====
section
/-! SUPPORT. One lemma per shared operation: everything it can do, so that later proofs cite it and do not unfold it. -/

namespace Sys2Proof.Machine

/-! ### Lengths -/

/-- The length byte of a legal payload holds its number of data bytes plus 2 without loss (R82). -/
theorem lenByte_toNat {n : Nat} (h : n ≤ Config.maxData) : (lenByte n).toNat = n + Config.lenOverhead := by
  simp only [lenByte, BitVec.toNat_ofNat]; simp only [Config.maxData, Config.lenOverhead] at *; omega

theorem lenLegal_iff (l : Nat) : lenLegal l = true ↔ 2 ≤ l ∧ l ≤ 254 := by
  simp [lenLegal]

theorem lenLegal_lenByte {n : Nat} (h : n ≤ Config.maxData) : lenLegal (lenByte n).toNat = true := by
  rw [lenByte_toNat h, lenLegal_iff]; simp only [Config.maxData, Config.lenOverhead] at *; omega

/-- A slice is its first byte and the slice after it. -/
theorem fbSlice_succ (s : State) (a n : Nat) : fbSlice s a (n + 1) = fbByte s a :: fbSlice s (a + 1) n := by
  simp only [fbSlice, List.range_succ_eq_map, List.map_cons, List.map_map, Nat.add_zero]
  refine congrArg _ (List.map_congr_left (fun i _ => ?_))
  simp [Nat.add_comm, Nat.add_left_comm]

theorem fbSlice_zero (s : State) (a : Nat) : fbSlice s a 0 = [] := rfl

/-- The image of a frame is its four header bytes and its data (R51). -/
theorem fbSlice_image (s : State) (n : Nat) :
    fbSlice s 0 (Config.frameOverhead + n)
      = [fbByte s 0, fbByte s 1, fbByte s 2, fbByte s 3] ++ fbSlice s Config.frameOverhead n := by
  rw [show Config.frameOverhead + n = n + 1 + 1 + 1 + 1 by simp only [Config.frameOverhead]; omega]
  simp only [fbSlice_succ, Nat.zero_add, Config.frameOverhead, List.cons_append, List.nil_append]

/-! ### Reads and writes of the frame buffer -/

theorem memRead_eq_some {s : State} {a n : Nat} {d : List Byte} :
    memRead s a n = some d ↔ a + n ≤ Config.fbSize ∧ d = fbSlice s a n := by
  unfold memRead; split_ifs with h <;> simp [h, eq_comm]

theorem memWrite_eq_some {a : Nat} {bs : List Byte} {s t : State} :
    memWrite a bs s = some t ↔ a + bs.length ≤ Config.fbSize ∧ t = { s with fb := Memory.insertAll s.fb a bs } := by
  unfold memWrite; split_ifs with h <;> simp [h, eq_comm]

theorem memRead_of_le {s : State} {a n : Nat} (h : a + n ≤ Config.fbSize) : memRead s a n = some (fbSlice s a n) :=
  if_pos h

theorem memWrite_of_le {a : Nat} {bs : List Byte} {s : State} (h : a + bs.length ≤ Config.fbSize) :
    memWrite a bs s = some { s with fb := Memory.insertAll s.fb a bs } :=
  if_pos h

theorem memWrite_keeps_wf {a : Nat} {bs : List Byte} {s t : State} (hw : memWrite a bs s = some t)
    (h : Memory.wf s.fb) : Memory.wf t.fb := by
  obtain ⟨hb, rfl⟩ := memWrite_eq_some.mp hw
  exact Memory.wf_insertAll bs h hb

/-! ### The host's writes and commands -/

theorem hostWrite_busy {t s : State} (h : s.busy = true) : hostWrite t s = s := by simp [hostWrite, h]

theorem hostWrite_idle {t s : State} (h : s.busy = false) : hostWrite t s = t := by simp [hostWrite, h]

/-- A run of window writes, when not BUSY, is one run of writes to FB (R29, R164). -/
theorem writeDbufs_idle (i : Nat) (bs : List Byte) {s : State} (h : s.busy = false) :
    writeDbufs i bs s = { s with fb := Memory.insertAll s.fb (dbufIndex i) bs } := by
  induction bs generalizing i s with
  | nil => rfl
  | cons b bs ih =>
    rw [writeDbufs, ih (i + 1) (by simpa using h)]
    simp [writeDbuf, hostWrite, h, fbSet, Memory.insertAll, dbufIndex, Nat.add_assoc]

theorem writeDbufs_busy (i : Nat) (bs : List Byte) {s : State} (h : s.busy = true) : writeDbufs i bs s = s := by
  induction bs generalizing i with
  | nil => rfl
  | cons b bs ih => rw [writeDbufs, writeDbuf, hostWrite_busy h, ih]

theorem takeCommand_busy (c : BitVec 2) {s : State} (h : s.busy = true) : takeCommand c s = s := by
  simp [takeCommand, h]

theorem takeCommand_encode {s : State} (h : s.busy = false) :
    takeCommand 1 s = { s with busy := true, done := false, phase := .txBuild } := by
  simp [takeCommand, h]

theorem takeCommand_decode {s : State} (h : s.busy = false) :
    takeCommand 2 s = { s with busy := true, done := false, phase := .rxWait } := by
  simp [takeCommand, h]

/-- Codes 0 and 3 start no operation, whatever the state (R163, R93). -/
theorem takeCommand_none {c : BitVec 2} (s : State) (h1 : c ≠ 1) (h2 : c ≠ 2) : takeCommand c s = s := by
  unfold takeCommand; rw [if_neg h1, if_neg h2, ite_self]

/-- FRAME.SET when not BUSY, as one update (R180). -/
theorem execFrameSet_idle (uu ll ff vv : Byte) {s : State} (h : s.busy = false) :
    execFrameSet uu ll ff vv s = .next { s with
      typ := Config.typeSet, dlen := 7, busy := true, done := false, phase := .txBuild
      fb := Memory.insertAll s.fb Config.frameOverhead (setData uu ll ff vv) } := by
  unfold execFrameSet
  rw [writeType, hostWrite_idle h, writeDlen, hostWrite_idle (by exact h), writeDbufs_idle _ _ (by exact h),
    takeCommand_encode (by exact h)]
  rfl

/-! ### The transport -/

/-- With no depth given every arrival is queued whole (R64). -/
theorem arrive_eq (bs : List Byte) (s : State) : arrive bs s = .next { s with rxq := s.rxq ++ bs } := by
  simp [arrive, rxqFits]

/-- The transmit environment never accepts more than it is offered (R57). -/
theorem txCount_le (n : Nat) (s : State) : txCount n s ≤ n := by
  unfold txCount
  split
  · exact Nat.lt_succ_iff.mp (Nat.mod_lt _ (Nat.succ_pos n))
  · exact Nat.min_le_right _ _
  · exact Nat.le_refl n

/-! ### What the end of an operation leaves of FB -/

/-- After a failed DECODE no byte of FB is specified (R38, R141). -/
theorem failDecode_find (k : Kind) (s : State) (a : Nat) : Memory.find (failDecode k s).fb a = none := by
  rw [failDecode_fb, Memory.find_keep, if_neg (by omega)]

/-- After a delivered DECODE nothing outside the received data is specified (R38). -/
theorem deliver_find_none (t : Byte) (n : Nat) (s : State) {a : Nat} (h : a < 4 ∨ 4 + n ≤ a) :
    Memory.find (deliver t n s).fb a = none := by
  show Memory.find (Memory.keep _ _ _) a = none
  rw [Memory.find_keep, if_neg (by simp only [Config.frameOverhead]; omega)]

/-- After an ENCODE that built its frame the header's places are unspecified (R38). -/
theorem endEncode_find_none (k : Kind) (s : State) {a : Nat} (h : a < 4) : Memory.find (endEncode k s).fb a = none := by
  show Memory.find (Memory.keep _ _ _) a = none
  rw [Memory.find_keep, if_neg (by simp only [Config.frameOverhead]; omega)]

/-- After a delivered DECODE the received data read as before, where they were specified (R38, R138). -/
theorem fbByte_deliver {s : State} {t : Byte} {n a : Nat} (h : 4 ≤ a ∧ a < 4 + n)
    (hs : (Memory.find s.fb a).isSome = true) : fbByte (deliver t n s) a = fbByte s a := by
  obtain ⟨b, hb⟩ := Option.isSome_iff_exists.mp hs
  rw [fbByte_of_find hb]
  apply fbByte_of_find
  rw [deliver_fb, Memory.find_keep, if_pos h, hb]

/-- ENCODE leaves every byte of the window as it was (R115). -/
theorem fbByte_endEncode {s : State} {a : Nat} (k : Kind) (h : 4 ≤ a ∧ a < 256) :
    fbByte (endEncode k s) a = fbByte s a := by
  have hd : (endEncode k s).dataGen = s.dataGen := rfl
  simp only [fbByte, endEncode_fb, Memory.find_keep, Config.frameOverhead, Config.fbSize, if_pos h, hd,
    if_neg (show ¬ a < 4 by omega)]

/-! ### The codec's steps, as equations where the spec's bounds hold -/

theorem stepRxHdr_eq {s : State} (h : s.rxErr = false) :
    stepRxHdr s = .next (checkHeader (s.rxq.take 2).length
      { rxDrop 2 s with fb := Memory.insertAll s.fb 0 (s.rxq.take 2) }) := by
  have hb : 0 + (s.rxq.take 2).length ≤ Config.fbSize := by simp only [List.length_take, Config.fbSize]; omega
  have hw := memWrite_of_le (s := rxDrop 2 s) hb
  simp only [stepRxHdr, h, rxTaken, Bool.false_eq_true, if_false, hw]; rfl

theorem stepRxBody_eq {s : State} (h : s.rxErr = false) {l : Nat} (hl : (fbByte s 1).toNat = l) (hle : l ≤ 254) :
    stepRxBody s = .next (checkBody (s.rxq.take l).length l
      { rxDrop l s with fb := Memory.insertAll s.fb 2 (s.rxq.take l) }) := by
  have hb : 2 + (s.rxq.take l).length ≤ Config.fbSize := by simp only [List.length_take, Config.fbSize]; omega
  have hw := memWrite_of_le (s := rxDrop l s) hb
  simp only [stepRxBody, h, rxTaken, hl, Bool.false_eq_true, if_false, hw]; rfl

theorem stepRxCheck_eq {s : State} {n : Nat} (hl : (fbByte s 1).toNat - Config.lenOverhead = n)
    (hn : n ≤ Config.maxData) :
    stepRxCheck s =
      if sum8 (fbSlice s Config.frameOverhead n) ≠ fbByte s 3
      then .next (failDecode .checksumMismatch { s with sum := sum8 (fbSlice s Config.frameOverhead n) })
      else .next (deliver (fbByte s 2) n { s with sum := sum8 (fbSlice s Config.frameOverhead n) }) := by
  have hb : Config.frameOverhead + n ≤ Config.fbSize := by
    simp only [Config.frameOverhead, Config.fbSize, Config.maxData] at *; omega
  simp only [stepRxCheck, hl, memRead_of_le hb]; rfl

theorem stepTxBuild_short {s : State} (h : s.dlen.toNat ≤ Config.maxData) :
    stepTxBuild s = .next { buildHeader { s with sum := sum8 (fbSlice s Config.frameOverhead s.dlen.toNat) } with
      phase := .txSend } := by
  have hb : Config.frameOverhead + s.dlen.toNat ≤ Config.fbSize := by
    simp only [Config.frameOverhead, Config.fbSize, Config.maxData] at *; omega
  simp only [stepTxBuild, if_neg (Nat.not_lt.mpr h), memRead_of_le hb]

theorem stepTxBuild_long {s : State} (h : Config.maxData < s.dlen.toNat) :
    stepTxBuild s = .next (forgetSum (finish .badLength s)) := by
  simp only [stepTxBuild, if_pos h]

theorem stepTxSend_eq {s : State} (h : s.dlen.toNat ≤ Config.maxData) :
    stepTxSend s = .next (endEncode
      (if txCount (Config.frameOverhead + s.dlen.toNat) s < Config.frameOverhead + s.dlen.toNat then .ioError else .ok)
      (txAppend (fbSlice s 0 (Config.frameOverhead + s.dlen.toNat))
        (txCount (Config.frameOverhead + s.dlen.toNat) s) s)) := by
  have hb : 0 + (Config.frameOverhead + s.dlen.toNat) ≤ Config.fbSize := by
    simp only [Config.frameOverhead, Config.fbSize, Config.maxData] at *; omega
  simp only [stepTxSend, memRead_of_le hb, fbSlice_length]

/-! ### Turns -/

/-- A line on the wire that is no frame: its bytes arrive. -/
theorem undecodedLine_wire (why : Reject) (bs : List Byte) (s : State) :
    undecodedLine why (selWire :: bs) s = .next { s with rxq := s.rxq ++ bs } :=
  arrive_eq bs s

/-- Any other line that decodes to nothing is refused by the decoder's reason. -/
theorem undecodedLine_other {why : Reject} {line : List Byte} {s : State} (h : ∀ bs, line ≠ selWire :: bs) :
    undecodedLine why line s = .refused (.badAccess why) := by
  cases line with
  | nil => rfl
  | cons sel bs =>
    have hs : sel ≠ selWire := fun e => h bs (by rw [e])
    simp only [undecodedLine, wireBytes, if_neg hs]

theorem step_cons {s : State} {t : Turn} {rest : List Turn} (h : s.agenda = t :: rest) :
    step s = takeTurn t (withAgenda rest s) := by
  simp only [step, nextTurn, h]

theorem step_nil {s : State} (h : s.agenda = []) : step s = quietStep s := by
  simp only [step, nextTurn, h]

end Sys2Proof.Machine
end

