-- ==== Sys2Proof/Laws/PerInstr.lean ====
section
/-! SUPPORT. The per-instruction family RoundTrip: decoding the line an instruction encodes to gives it back. -/

namespace Sys2Proof.Laws.RoundTrip

open Sys2Proof Sys2Proof.Machine

/-- Decoding the encoded line of a well-formed instruction gives that instruction, with every operand. -/
def Statement (i : Instr) : Prop :=
  i.WellFormed → decodeLine (encodeLine i) = .ok i

theorem nop : Statement .nop := fun _ => rfl
theorem encode : Statement .encode := fun _ => rfl
theorem decode : Statement .decode := fun _ => rfl
theorem reserved3 : Statement .reserved3 := fun _ => rfl

/-- The two value bytes of SETTLE_MS give the word back. -/
theorem word_of_halves (v : Word) : v.extractLsb' 8 8 ++ v.extractLsb' 0 8 = v := by
  ext i hi
  simp only [BitVec.getElem_append, BitVec.getElem_extractLsb']
  split_ifs with h
  · simp [BitVec.getLsbD_eq_getElem hi]
  · rw [show 8 + (i - 8) = i by omega, BitVec.getLsbD_eq_getElem hi]

theorem wrSettleMs (v : Word) : Statement (.wrSettleMs v) := fun _ => by
  show Except.ok (Instr.wrSettleMs (v.extractLsb' 8 8 ++ v.extractLsb' 0 8)) = _
  rw [word_of_halves]

theorem wrType (v : Byte) : Statement (.wrType v) := fun _ => rfl
theorem wrDlen (v : Byte) : Statement (.wrDlen v) := fun _ => rfl

theorem index_toNat {n : Nat} (h : n < 252) : (BitVec.ofNat 8 n).toNat = n := by
  rw [BitVec.toNat_ofNat]; omega

theorem wrd (n : Nat) (b : Byte) : Statement (.wrd n b) := fun h => by
  have hn : n < 252 := of_decide_eq_true h
  show (if (BitVec.ofNat 8 n).toNat < Config.maxData then Except.ok (Instr.wrd (BitVec.ofNat 8 n).toNat b)
    else Except.error Reject.noSuchWindowByte) = _
  rw [index_toNat hn, if_pos hn]

theorem wrCmd (c : BitVec 2) : Statement (.wrCmd c) := fun _ => by revert c; decide
theorem rdStatus : Statement .rdStatus := fun _ => rfl
theorem rdResult : Statement .rdResult := fun _ => rfl
theorem rdType : Statement .rdType := fun _ => rfl
theorem rdDlen : Statement .rdDlen := fun _ => rfl
theorem rdSettleMs : Statement .rdSettleMs := fun _ => rfl

theorem rdd (n : Nat) : Statement (.rdd n) := fun h => by
  have hn : n < 252 := of_decide_eq_true h
  show (if (BitVec.ofNat 8 n).toNat < Config.maxData then Except.ok (Instr.rdd (BitVec.ofNat 8 n).toNat)
    else Except.error Reject.noSuchWindowByte) = _
  rw [index_toNat hn, if_pos hn]

theorem frame (t : Byte) (d : List Byte) : Statement (.frame t d) := fun h => by
  have hd : d.length ≤ Config.maxData := of_decide_eq_true h
  have hl := lenLegal_lenByte hd
  rw [lenByte_toNat hd] at hl
  show decodeFrame (frameBytes t d) = _
  simp [frameBytes, decodeFrame, hl, lenByte_toNat hd]

theorem frameSet (uu ll ff vv : Byte) : Statement (.frameSet uu ll ff vv) := fun _ => by
  show decodeSetFrame (frameBytes Config.typeSet (setData uu ll ff vv)) = _
  simp [frameBytes, decodeSetFrame, setData]

end Sys2Proof.Laws.RoundTrip
end

