-- ==== Sys2Proof/Machine/Operation.lean ====
section
/-! DEFINITION. Level 2 of the spec (R7): ENCODE and DECODE as whole operations over an abstract transport (R110, R130).
Level 2 governs (R7); the statements say that the machine's phases do what these functions say. -/

namespace Sys2Proof.Machine

/-- ENCODE (R110): the result, and the bytes TXW gains when the transport accepts `k` of those offered (at most all). -/
def encodeOp (t : Byte) (d : List Byte) (k : Nat) : Kind × List Byte :=
  if Config.maxData < d.length then (.badLength, [])
  else
    let f := frameBytes t d
    (if k < f.length then .ioError else .ok, f.take k)

/-- DECODE from its header read on (steps 3 to 5 of R130): `q` is queued and `e` is rx_err at the header read; `a` has
arrived and `e'` is rx_err at the body read. The outcome, and how many bytes of `q ++ a` are consumed (R139). -/
def decodeOp (e e' : Bool) (q a : List Byte) : Parsed × Nat :=
  if e then (.fail .ioError, 0)
  else if q.length < Config.hdrBytes then (.fail .shortRead, q.length)
  else if q.getD 0 0 ≠ Config.magic then (.fail .badMagic, Config.hdrBytes)
  else
    let l := (q.getD 1 0).toNat
    if !lenLegal l then (.fail .badLength, Config.hdrBytes)
    else if e' then (.fail .ioError, Config.hdrBytes)
    else
      let b := (q.drop Config.hdrBytes ++ a).take l
      if b.length < l then (.fail .shortRead, Config.hdrBytes + b.length)
      else if sum8 (b.drop 2) ≠ b.getD 1 0 then (.fail .checksumMismatch, Config.hdrBytes + l)
      else (.ok (b.getD 0 0) (b.drop 2), Config.hdrBytes + l)

end Sys2Proof.Machine
end

