-- ==== Sys2Proof/Safety.lean ====
section
/-! DEFINITION. What counts as a safe run: the invariant of the reachable states, and the absence of faults. -/

namespace Sys2Proof.Machine

/-- BUSY is 1 exactly while PHASE is not IDLE, and BUSY and DONE are never both 1 (R24, R31). -/
def FlagsAgree (s : State) : Prop :=
  (s.busy = true ↔ s.phase ≠ .idle) ∧ ¬ (s.busy = true ∧ s.done = true)

/-- RESULT holds one of the codes 0 to 5 (R25). -/
def ResultIsCode (s : State) : Prop :=
  s.result.toNat ≤ 5

/-- `FB[a] .. FB[a+n-1]` all have specified contents. -/
def Specified (s : State) (a n : Nat) : Prop :=
  ∀ i, i < n → (Memory.find s.fb (a + i)).isSome = true

/-- A header that passed its tests stands in FB[0] and FB[1] while the body is read and checked (R134, R135, R140). -/
def HeaderRead (s : State) : Prop :=
  s.phase = .rxBody ∨ s.phase = .rxCheck →
    Specified s 0 2 ∧ fbByte s 0 = Config.magic ∧ lenLegal (fbByte s 1).toNat = true

/-- The whole body stands in FB while it is checked (R136, R140). -/
def BodyRead (s : State) : Prop :=
  s.phase = .rxCheck → Specified s 2 (fbByte s 1).toNat

/-- The image of a whole frame of the operands stands in FB when it is sent (R112, R51). -/
def FrameBuilt (s : State) : Prop :=
  s.phase = .txSend → s.dlen.toNat ≤ Config.maxData ∧
    fbSlice s 0 (Config.frameOverhead + s.dlen.toNat)
      = frameBytes s.typ (fbSlice s Config.frameOverhead s.dlen.toNat)

/-- TMR has run out once the delay is over (R140; the row TMR of R38 after DECODE Ok). -/
def TimerDone (s : State) : Prop :=
  s.phase = .rxHdr ∨ s.phase = .rxBody ∨ s.phase = .rxCheck → s.tmr = 0

/-- The invariant: true at reset, kept by every step. -/
structure Inv (s : State) : Prop where
  flags : FlagsAgree s
  result : ResultIsCode s
  memory : Memory.wf s.fb
  header : HeaderRead s
  body : BodyRead s
  built : FrameBuilt s
  timer : TimerDone s

/-- A step that does not fault. -/
def NoFault (o : Host.Outcome State Fault Refusal) : Prop :=
  ∀ r, o ≠ .fault r

end Sys2Proof.Machine
end

