-- ==== Sys2Proof/Certificates/Slice0/Obligations.lean ====
section
/-! DEFINITION. The statements for the provers: what each row of the opcode table does and leaves alone, what each phase
of the codec does, the format's properties, the invariant, and that the phases do what the operations say. -/

open Sys2Proof Sys2Proof.Machine

/-! ### Lines and steps -/

/-- The host's turn runs the instruction its line decodes to, on the state whose agenda no longer holds the turn
(the model's step, log entry 3; R8, R60). -/
def Obligations.StepRunsTheDecodedInstruction : Prop :=
  ∀ (s : State) (line : List Byte) (rest : List Turn) (i : Instr),
    s.agenda = .host line :: rest → decodeLine line = .ok i → step s = exec i { s with agenda := rest }

/-- A line that decodes to nothing is refused by the decoder's reason (R22, R23, R29, U10; log entry 17), unless it is on
the wire's select 5, when its bytes join RXQ though they make no frame, and nothing else changes (R8, R54; log entries 1
and 12). -/
def Obligations.StepRefusesWhatIsNoAccess : Prop :=
  ∀ (s : State) (line : List Byte) (rest : List Turn) (why : Reject),
    s.agenda = .host line :: rest → decodeLine line = .error why →
    ((∀ bs, line ≠ 0x05 :: bs) → step s = .refused (.badAccess why)) ∧
    (∀ bs, line = 0x05 :: bs → step s = .next { s with rxq := s.rxq ++ bs, agenda := rest })

/-- Numbers and codes read off the spec's tables: command codes (R92), register numbers (R22), the window (R29), the frame
of vector E2 (R80), within the line layout of log entry 1. -/
def Obligations.WordsOfTheSpecDecode : Prop :=
  decodeLine [0x00, 0x01] = .ok .encode ∧ decodeLine [0x00, 0x02] = .ok .decode ∧
  decodeLine [0x01, 0x03, 0x04] = .ok (.wrType 0x04) ∧ decodeLine [0x01, 0x05, 0x2C, 0x01] = .ok (.wrSettleMs 300) ∧
  decodeLine [0x02, 0x01] = .ok .rdStatus ∧ decodeLine [0x03, 0xFB, 0x7F] = .ok (.wrd 251 0x7F) ∧
  decodeLine [0x04, 0xFC] = .error .noSuchWindowByte ∧ decodeLine [0x02, 0x06] = .error .noSuchRegister ∧
  decodeLine [0x05, 0x81, 0x02, 0x04, 0x00] = .ok (.frame 0x04 [])

/-- Decoding the line of a well-formed instruction gives it back, with every operand (R22, R80, R92). -/
def Obligations.DecodeOfEncodeIsIdentity : Prop :=
  ∀ i : Instr, Sys2Proof.Laws.RoundTrip.Statement i

/-- Whatever decodes is well-formed, and its line is the one it encodes to: no two lines mean the same instruction. -/
def Obligations.EncodeOfDecodeIsIdentity : Prop :=
  ∀ (line : List Byte) (i : Instr), decodeLine line = .ok i → i.WellFormed ∧ encodeLine i = line

/-- Every word of the row FRAME.SET, in the table's byte order and with the checksum byte left 0, decodes to the row with
its four operand bytes, whatever they are: no operand value is taken for another byte of the frame (R81, R180; the
reading of table words is log entry 2). -/
def Obligations.SetFrameTableWordDecodes : Prop :=
  ∀ uu ll ff vv : Byte,
    decodeTableWord 88 (0x8109040002018300000000 + uu.toNat * 2 ^ 24 + ll.toNat * 2 ^ 16 + ff.toNat * 2 ^ 8 + vv.toNat)
      = some (.frameSet uu ll ff vv)

/-! ### Reset -/

/-- The state right after reset (R220): the values of the "After reset" column of R38, and no byte of FB specified. -/
def Obligations.ResetLeavesTheBlockIdle : Prop :=
  State.reset.phase = .idle ∧ State.reset.busy = false ∧ State.reset.done = false ∧ State.reset.result = 0 ∧
  State.reset.typ = 0 ∧ State.reset.dlen = 0 ∧ State.reset.settleMs = 300 ∧ State.reset.tmr = 0 ∧ State.reset.sum = 0 ∧
  ∀ a, Memory.find State.reset.fb a = none

/-- The reset input, whatever the block was doing, gives the block the same values as `State.reset` and leaves the
transport alone (R220, R221). -/
def Obligations.ResetInputEndsAnyOperation : Prop :=
  ∀ (s : State) (rest : List Turn), s.agenda = .reset :: rest →
    ∃ t, step s = .next t ∧
      t.phase = State.reset.phase ∧ t.busy = State.reset.busy ∧ t.done = State.reset.done ∧
      t.result = State.reset.result ∧ t.typ = State.reset.typ ∧ t.dlen = State.reset.dlen ∧
      t.settleMs = State.reset.settleMs ∧ t.tmr = State.reset.tmr ∧ t.sum = State.reset.sum ∧
      (∀ a, Memory.find t.fb a = none) ∧ t.rxq = s.rxq ∧ t.rxErr = s.rxErr ∧ t.txw = s.txw ∧ t.agenda = rest

/-- An idle block with nothing to do stays as it is (R31: IDLE has no step, it waits for a CMD write). The quiet step
is the model's, log entry 4. -/
def Obligations.IdleBlockWaits : Prop :=
  ∀ s : State, s.agenda = [] → s.phase = .idle → step s = .next s

/-! ### Commands -/

/-- NOP changes nothing, at any time (R163). -/
def Obligations.NopChangesNothing : Prop :=
  ∀ s : State, exec .nop s = .next s

/-- The reserved code 3 changes nothing, at any time (R93). -/
def Obligations.ReservedCommandChangesNothing : Prop :=
  ∀ s : State, exec .reserved3 s = .next s

/-- The CMD port (R23). While BUSY is 0 each of the four codes does what it encodes, 0 nothing (R163), 3 nothing (R93; that
the write is admitted is log entry 9), and the equations say what does not change as well; while BUSY is 1 a write
changes nothing, whatever its code; reading CMD is not possible, which the model answers by a refusal by name (log entry
17). The rows NOP, ENCODE, DECODE and RESERVED3 are such writes. -/
def Obligations.CommandPortStartsOrIgnores : Prop :=
  (∀ s : State, s.busy = false →
    exec (.wrCmd 0) s = .next s ∧
    exec (.wrCmd 1) s = .next { s with busy := true, done := false, phase := .txBuild } ∧
    exec (.wrCmd 2) s = .next { s with busy := true, done := false, phase := .rxWait } ∧
    exec (.wrCmd 3) s = .next s ∧
    exec .encode s = .next { s with busy := true, done := false, phase := .txBuild } ∧
    exec .decode s = .next { s with busy := true, done := false, phase := .rxWait }) ∧
  (∀ s : State, s.busy = true →
    (∀ c, exec (.wrCmd c) s = .next s) ∧ exec .nop s = .next s ∧ exec .encode s = .next s ∧
    exec .decode s = .next s ∧ exec .reserved3 s = .next s) ∧
  decodeRegRead 0 = .error .writeOnlyRegister

/-! ### Host writes -/

/-- WR SETTLE_MS, WR TYPE and WR DLEN write their register, any value of it, and nothing else, unless BUSY, when the write
is dropped (R160, R164, R39, R63). -/
def Obligations.RegisterWritesUnlessBusy : Prop :=
  ∀ (s : State) (w : Word) (v : Byte),
    (s.busy = false →
      exec (.wrSettleMs w) s = .next { s with settleMs := w } ∧
      exec (.wrType v) s = .next { s with typ := v } ∧
      exec (.wrDlen v) s = .next { s with dlen := v }) ∧
    (s.busy = true →
      exec (.wrSettleMs w) s = .next s ∧ exec (.wrType v) s = .next s ∧ exec (.wrDlen v) s = .next s)

/-- WRD writes one byte of the window: that byte reads as written, every other byte of FB as before, and nothing else
changes; while BUSY it is dropped (R164, R29, R39, R63). -/
def Obligations.WindowWriteChangesOneByte : Prop :=
  ∀ (s : State) (i : Nat) (b : Byte), i ≤ 251 →
    (s.busy = false → ∃ t, exec (.wrd i b) s = .next t ∧ fbByte t (4 + i) = b ∧
      (∀ a, a ≠ 4 + i → fbByte t a = fbByte s a) ∧ { t with fb := s.fb } = s) ∧
    (s.busy = true → exec (.wrd i b) s = .next s)

/-- Window indexes 252 and above do not exist (R29): the access is refused by name, as a write and as a read. -/
def Obligations.WindowIndexBeyondIsRefused : Prop :=
  ∀ (s : State) (i : Nat) (b : Byte), 252 ≤ i →
    exec (.wrd i b) s = .refused (.badAccess .noSuchWindowByte) ∧
    exec (.rdd i) s = .refused (.badAccess .noSuchWindowByte)

/-! ### Host reads -/

/-- RD STATUS at any time returns the word of R161, each bit where R24 has it, and changes nothing else. -/
def Obligations.StatusReadReturnsTheFlags : Prop :=
  ∀ s : State,
    exec .rdStatus s = .next { s with rdata := (statusWord s).setWidth 16 } ∧
    (statusWord s).getLsbD 0 = s.busy ∧ (statusWord s).getLsbD 1 = s.done ∧
    (statusWord s).getLsbD 2 = decide (1 ≤ s.rxq.length) ∧ (statusWord s).getLsbD 3 = s.rxErr ∧
    (statusWord s).extractLsb' 4 4 = 0

/-- RD RESULT, RD TYPE, RD DLEN and RDD when not BUSY return the register or window byte, zero-extended, and change
nothing else (R162, R165). For `i ≥ DLEN` R165 calls the value unspecified; that RDD returns the byte of FB there too is
the model's choice, log entry 25. -/
def Obligations.ReadsWhenIdleReturnTheRegister : Prop :=
  ∀ (s : State) (i : Nat), s.busy = false → i ≤ 251 →
    exec .rdResult s = .next { s with rdata := s.result.setWidth 16 } ∧
    exec .rdType s = .next { s with rdata := s.typ.setWidth 16 } ∧
    exec .rdDlen s = .next { s with rdata := s.dlen.setWidth 16 } ∧
    exec (.rdd i) s = .next { s with rdata := (fbByte s (4 + i)).setWidth 16 }

/-- RD SETTLE_MS returns the stored value at all times (R39, R165). -/
def Obligations.SettleReadsAtAnyTime : Prop :=
  ∀ s : State, exec .rdSettleMs s = .next { s with rdata := s.settleMs }

/-- Reads of RESULT, TYPE, DLEN and DBUF while BUSY complete with some value of the register's width, about which nothing
is said (R39), and change no register, no flag and no byte of FB; the draw counter is the model's (log entries 5, 8). -/
def Obligations.ReadsWhileBusyAreUnspecified : Prop :=
  ∀ (s : State) (i : Nat), s.busy = true → i ≤ 251 →
    (∃ v : BitVec 4, exec .rdResult s = .next { s with rdata := v.setWidth 16, draws := s.draws + 1 }) ∧
    (∃ v : Byte, exec .rdType s = .next { s with rdata := v.setWidth 16, draws := s.draws + 1 }) ∧
    (∃ v : Byte, exec .rdDlen s = .next { s with rdata := v.setWidth 16, draws := s.draws + 1 }) ∧
    (∃ v : Byte, exec (.rdd i) s = .next { s with rdata := v.setWidth 16, draws := s.draws + 1 })

/-! ### The wire rows -/

/-- FRAME: the frame's bytes join the tail of RXQ and nothing else changes; more than 252 data bytes make no frame (R80,
R88). That the row means an arrival is the model's choice, log entry 12. -/
def Obligations.FrameArrivesOnTheQueue : Prop :=
  ∀ (s : State) (t : Byte) (d : List Byte),
    (d.length ≤ 252 →
      exec (.frame t d) s = .next { s with
        rxq := s.rxq ++ ([0x81, BitVec.ofNat 8 (d.length + 2), t, sum8 d] ++ d) }) ∧
    (252 < d.length → exec (.frame t d) s = .refused (.badAccess .frameWrongSize))

/-- FRAME.SET when not BUSY: TYPE 4, DLEN 7, the seven bytes of R180 in the window, ENCODE started; every other byte of
FB and every other field as before. While BUSY it is dropped whole. The meaning is the model's choice, log entry 13. -/
def Obligations.SetFrameLoadsAndStartsEncode : Prop :=
  ∀ (s : State) (uu ll ff vv : Byte),
    (s.busy = false → ∃ t, exec (.frameSet uu ll ff vv) s = .next t ∧
      fbSlice t 4 7 = [0x02, 0x01, 0x83, uu, ll, ff, vv] ∧
      (∀ a, a < 4 ∨ 11 ≤ a → fbByte t a = fbByte s a) ∧
      t = { s with typ := 0x04, dlen := 7, busy := true, done := false, phase := .txBuild, fb := t.fb }) ∧
    (s.busy = true → exec (.frameSet uu ll ff vv) s = .next s)

/-- FRAME.SET followed by the codec's two steps, the transport accepting all, sends the eleven bytes of the table's row,
with CC = 0x86 + UU + LL + FF + VV, and ends Ok (R180, R112; log entry 13). -/
def Obligations.SetFrameSendsItsElevenBytes : Prop :=
  ∀ (s : State) (uu ll ff vv : Byte), s.busy = false → s.txNext = .all →
    ∃ t, Sys2Proof.core.run 3
        (withAgenda [.host (encodeLine (.frameSet uu ll ff vv)), .codec, .codec] s) = .next t ∧
      t.txw = s.txw ++ [0x81, 0x09, 0x04, 0x86 + uu + ll + ff + vv, 0x02, 0x01, 0x83, uu, ll, ff, vv] ∧
      t.result = 0 ∧ t.done = true ∧ t.busy = false ∧ t.phase = .idle ∧ t.rxq = s.rxq

/-! ### The format -/

/-- `sum8` is the sum of the bytes modulo 256, taken byte by byte, in any order (R87). -/
def Obligations.ChecksumIsTheSumModulo256 : Prop :=
  sum8 [] = 0 ∧ (∀ (s : List Byte) (b : Byte), (sum8 (s ++ [b])).toNat = ((sum8 s).toNat + b.toNat) % 256) ∧
  (∀ s : List Byte, (sum8 s).toNat = (s.map BitVec.toNat).sum % 256) ∧
  (∀ s s' : List Byte, s.Perm s' → sum8 s = sum8 s')

/-- The frame's layout byte by byte (R80), for every legal number of data bytes. -/
def Obligations.FrameLayout : Prop :=
  ∀ (t : Byte) (d : List Byte), d.length ≤ 252 →
    (frameBytes t d).length = 4 + d.length ∧ (frameBytes t d)[0]? = some 0x81 ∧
    ((frameBytes t d)[1]?.map BitVec.toNat) = some (d.length + 2) ∧ (frameBytes t d)[2]? = some t ∧
    (frameBytes t d)[3]? = some (sum8 d) ∧ ∀ i, i < d.length → (frameBytes t d)[4 + i]? = d[i]?

/-- A frame followed by anything parses to its payload and uses exactly its own bytes; frames are injective; the type tag
is not covered by the checksum (R95 (a), R96 (a) to (c) and (e)). -/
def Obligations.FramesParseBackAndDelimitThemselves : Prop :=
  (∀ (t : Byte) (d r : List Byte), d.length ≤ 252 →
    parseFrame (frameBytes t d ++ r) = (.ok t d, d.length + 4)) ∧
  (∀ (t t' : Byte) (d d' : List Byte), d.length ≤ 252 → d'.length ≤ 252 →
    frameBytes t d = frameBytes t' d' → t = t' ∧ d = d') ∧
  (∀ (t t' : Byte) (d : List Byte), d.length ≤ 252 →
    parseFrame ((frameBytes t d).set 2 t') = (.ok t' d, d.length + 4))

/-- The two testable properties of R95: (a) a frame parses back to its payload, all its bytes used; (b) flipping any one bit
of the checksum byte or of a data byte makes parsing fail with ChecksumMismatch, the whole frame used. -/
def Obligations.RoundTripAndSingleBitErrors : Prop :=
  ∀ (t : Byte) (d : List Byte), d.length ≤ 252 →
    parseFrame (frameBytes t d) = (.ok t d, d.length + 4) ∧
    ∀ k i : Nat, 3 ≤ k → k < d.length + 4 → i < 8 →
      parseFrame ((frameBytes t d).set k ((frameBytes t d).getD k 0 ^^^ BitVec.twoPow 8 i))
        = (.fail .checksumMismatch, d.length + 4)

/-- ParseFrame test by test, in the order of R89, with the bytes each outcome uses. -/
def Obligations.ParseFrameTestsInOrder : Prop :=
  ∀ (m l : Byte) (r : List Byte),
    parseFrame [] = (.fail .shortRead, 0) ∧ parseFrame [m] = (.fail .shortRead, 1) ∧
    (m ≠ 0x81 → parseFrame (m :: l :: r) = (.fail .badMagic, 2)) ∧
    (m = 0x81 → l = 0 ∨ l = 1 ∨ l = 255 → parseFrame (m :: l :: r) = (.fail .badLength, 2)) ∧
    (m = 0x81 → 2 ≤ l.toNat → l.toNat ≤ 254 → r.length < l.toNat →
      parseFrame (m :: l :: r) = (.fail .shortRead, 2 + r.length)) ∧
    (m = 0x81 → ∀ (t c : Byte) (d rest : List Byte), d.length + 2 = l.toNat → l.toNat ≤ 254 → r = t :: c :: (d ++ rest) →
      (sum8 d ≠ c → parseFrame (m :: l :: r) = (.fail .checksumMismatch, 2 + l.toNat)) ∧
      (sum8 d = c → parseFrame (m :: l :: r) = (.ok t d, 2 + l.toNat)))

/-! ### The operations (level 2) -/

/-- With no error reported, DECODE from its header read on is ParseFrame of what was queued, and of what had arrived by the
body read when the header was whole (R144). -/
def Obligations.DecodeIsParseFrame : Prop :=
  ∀ q a : List Byte,
    decodeOp false false q [] = parseFrame q ∧ (2 ≤ q.length → decodeOp false false q a = parseFrame (q ++ a))

/-- The bytes one DECODE consumes, by outcome (R139), `q` queued at the header read and `a` arriving before the body read;
never more than 256 and never more than are there. -/
def Obligations.DecodeConsumption : Prop :=
  ∀ (e e' : Bool) (q a : List Byte) (p : Parsed) (n : Nat), decodeOp e e' q a = (p, n) →
    n ≤ (q ++ a).length ∧ n ≤ 256 ∧
    match p with
    | .ok _ d => n = 2 + (q.getD 1 0).toNat ∧ d.length + 2 = (q.getD 1 0).toNat ∧ d.length ≤ 252
    | .fail .ok => False
    | .fail .badMagic => n = 2
    | .fail .badLength => n = 2
    | .fail .ioError => (e = true ∧ n = 0) ∨ (e = false ∧ e' = true ∧ n = 2)
    | .fail .checksumMismatch => n = 2 + (q.getD 1 0).toNat
    | .fail .shortRead => n = (q ++ a).length ∧ 2 ≤ q.length ∧ n < 2 + (q.getD 1 0).toNat ∨ n = q.length ∧ q.length < 2

/-! ### The codec's phases -/

/-- RX_WAIT (R131, R140): no step while there is neither byte nor error; the error wins, with nothing consumed; otherwise
TMR is loaded and RX_SETTLE entered, nothing else changing. -/
def Obligations.WaitEndsOnErrorOrByte : Prop :=
  ∀ s : State, s.phase = .rxWait →
    (s.rxErr = false → s.rxq = [] → codecStep s = .next s) ∧
    (s.rxErr = false → s.rxq ≠ [] → codecStep s = .next { s with tmr := s.settleMs, phase := .rxSettle }) ∧
    (s.rxErr = true → ∃ t, codecStep s = .next t ∧ t.result = 4 ∧ t.done = true ∧ t.busy = false ∧
      t.phase = .idle ∧ t.rxq = s.rxq ∧ t.settleMs = s.settleMs ∧ t.txw = s.txw)

/-- A DECODE that sees no byte and no error waits for ever, unchanged (R131). -/
def Obligations.WaitCanLastForEver : Prop :=
  ∀ (s : State) (k : Nat), s.agenda = [] → s.phase = .rxWait → s.rxq = [] → s.rxErr = false →
    Sys2Proof.core.run k s = .next s

/-- The environment's own turns change one field each and nothing else: bytes join the tail of RXQ (R54; unbounded by log
entry 14), rx_err takes the level set (R56), the transmit environment's choice for the next TxWrite is fixed (R57, the
line TXACC of R94; log entry 22). Turns are the model's, log entry 3. -/
def Obligations.EnvironmentTurnsChangeOneField : Prop :=
  ∀ (s : State) (rest : List Turn),
    (∀ bs, s.agenda = .rx bs :: rest → step s = .next { s with rxq := s.rxq ++ bs, agenda := rest }) ∧
    (∀ e, s.agenda = .rxErr e :: rest → step s = .next { s with rxErr := e, agenda := rest }) ∧
    (∀ k, s.agenda = .txAcc k :: rest → step s = .next { s with txNext := k, agenda := rest })

/-- A tick counts TMR down in RX_SETTLE while it is above 0, and changes nothing else and nowhere else (R32). -/
def Obligations.TickCountsOnlyInSettle : Prop :=
  ∀ (s : State) (rest : List Turn), s.agenda = .tick :: rest →
    (s.phase = .rxSettle → s.tmr ≠ 0 → step s = .next { s with tmr := s.tmr - 1, agenda := rest }) ∧
    (s.phase ≠ .rxSettle ∨ s.tmr = 0 → step s = .next { s with agenda := rest })

/-- The settling delay is never cut short, whatever the agents do (R132, R140): a step leaves RX_SETTLE for RX_HDR only
with TMR 0, or for IDLE by reset; otherwise it stays, and TMR stands or goes down by one, the latter only when the clock
ticks: in its turn, or with the outside silent (log entries 3 and 4). The codec's own step leaves all as it is while TMR
is not 0, and then enters RX_HDR and does nothing else. -/
def Obligations.SettleDelayIsNeverCutShort : Prop :=
  (∀ s t : State, Inv s → s.phase = .rxSettle → step s = .next t →
    (t.phase = .rxSettle ∧ t.tmr = s.tmr) ∨
    (t.phase = .rxSettle ∧ t.tmr.toNat + 1 = s.tmr.toNat ∧ (s.agenda.head? = some .tick ∨ s.agenda = [])) ∨
    (t.phase = .rxHdr ∧ s.tmr = 0) ∨
    (t.phase = .idle ∧ s.agenda.head? = some .reset)) ∧
  (∀ s : State, s.phase = .rxSettle →
    (s.tmr ≠ 0 → codecStep s = .next s) ∧ (s.tmr = 0 → codecStep s = .next { s with phase := .rxHdr }))

/-- With the outside silent the delay takes TMR ticks and one codec step, and then the header is read (R132, R140; the
quiet step is the model's fairness, log entry 4). -/
def Obligations.SettleDelayEndsAfterItsTicks : Prop :=
  ∀ s : State, s.agenda = [] → s.phase = .rxSettle →
    (∀ k, k ≤ s.tmr.toNat → Sys2Proof.core.run k s = .next { s with tmr := s.tmr - BitVec.ofNat 16 k }) ∧
    Sys2Proof.core.run (s.tmr.toNat + 1) s = .next { s with tmr := 0, phase := .rxHdr }

/-- RX_HDR with no error reported (R133 to R135, R140): the two header bytes, or the one there is, leave the queue; then
the tests in their order; a good header enters RX_BODY. -/
def Obligations.HeaderStepTestsInOrder : Prop :=
  ∀ s : State, s.phase = .rxHdr → s.rxErr = false →
    ∃ t, codecStep s = .next t ∧ t.rxq = s.rxq.drop 2 ∧ t.settleMs = s.settleMs ∧ t.txw = s.txw ∧ t.rxErr = s.rxErr ∧
      ((s.rxq.length < 2 → t.result = 2 ∧ t.phase = .idle ∧ t.done = true ∧ t.busy = false) ∧
       (2 ≤ s.rxq.length → s.rxq.getD 0 0 ≠ 0x81 →
         t.result = 1 ∧ t.phase = .idle ∧ t.done = true ∧ t.busy = false) ∧
       (2 ≤ s.rxq.length → s.rxq.getD 0 0 = 0x81 → (s.rxq.getD 1 0).toNat < 2 ∨ 254 < (s.rxq.getD 1 0).toNat →
         t.result = 5 ∧ t.phase = .idle ∧ t.done = true ∧ t.busy = false) ∧
       (2 ≤ s.rxq.length → s.rxq.getD 0 0 = 0x81 → 2 ≤ (s.rxq.getD 1 0).toNat → (s.rxq.getD 1 0).toNat ≤ 254 →
         t.phase = .rxBody ∧ fbByte t 0 = s.rxq.getD 0 0 ∧ fbByte t 1 = s.rxq.getD 1 0 ∧
         (∀ a, 2 ≤ a → fbByte t a = fbByte s a) ∧ t.result = s.result ∧ t.done = s.done ∧ t.busy = s.busy))

/-- RX_BODY with no error reported (R136, R140): the `LEN` bytes FB[1] asks for, or as many as there are, leave the queue;
too few is ShortRead; all of them stand in FB[2..) and RX_CHECK is entered, the rest of FB as before. -/
def Obligations.BodyStepTakesTheDeclaredLength : Prop :=
  ∀ s : State, Inv s → s.phase = .rxBody → s.rxErr = false →
    ∃ t, codecStep s = .next t ∧ t.rxq = s.rxq.drop (fbByte s 1).toNat ∧ t.settleMs = s.settleMs ∧ t.txw = s.txw ∧
      (s.rxq.length < (fbByte s 1).toNat → t.result = 2 ∧ t.phase = .idle ∧ t.done = true ∧ t.busy = false) ∧
      ((fbByte s 1).toNat ≤ s.rxq.length → t.phase = .rxCheck ∧
        fbSlice t 2 (fbByte s 1).toNat = s.rxq.take (fbByte s 1).toNat ∧
        (∀ a, a < 2 ∨ 2 + (fbByte s 1).toNat ≤ a → fbByte t a = fbByte s a) ∧
        { t with phase := s.phase, rxq := s.rxq, fb := s.fb } = s)

/-- RX_CHECK (R137, R138): the sum of the LEN - 2 data bytes against the checksum byte FB[3]; on agreement Ok, with TYPE
from FB[2], DLEN = LEN - 2 and the data left in the window; otherwise ChecksumMismatch. The queue is not touched. After
Ok nothing but those data is specified in FB (R29, R38): every other byte of FB reads as the free value of a new
generation, and SUM is a free value (log entries 5, 6 and 7). -/
def Obligations.CheckStepDeliversOrRejects : Prop :=
  ∀ s : State, Inv s → s.phase = .rxCheck →
    ∃ t, codecStep s = .next t ∧ t.phase = .idle ∧ t.done = true ∧ t.busy = false ∧ t.rxq = s.rxq ∧
      t.settleMs = s.settleMs ∧ t.txw = s.txw ∧
      (sum8 (fbSlice s 4 ((fbByte s 1).toNat - 2)) ≠ fbByte s 3 → t.result = 3) ∧
      (sum8 (fbSlice s 4 ((fbByte s 1).toNat - 2)) = fbByte s 3 → t.result = 0 ∧ t.typ = fbByte s 2 ∧
        t.dlen.toNat + 2 = (fbByte s 1).toNat ∧ t.dlen.toNat ≤ 252 ∧ t.tmr = 0 ∧
        fbSlice t 4 t.dlen.toNat = fbSlice s 4 t.dlen.toNat ∧
        (∀ a, a < 4 ∨ 4 + t.dlen.toNat ≤ a → Memory.find t.fb a = none ∧ fbByte t a = Config.freeFb s.draws a) ∧
        t.sum = Config.freeSum (s.draws + 1) ∧ t.draws = s.draws + 2)

/-- A DECODE that ends in failure, in whatever phase, keeps nothing (R141, R38): no byte of FB is specified, each reads as
the free value of a new generation, and TYPE, DLEN, TMR and SUM are free values, drawn by a count that does not depend
on the frame (log entries 5, 6 and 7). SETTLE_MS, the wire and rx_err stand. -/
def Obligations.FailedDecodeKeepsNothing : Prop :=
  ∀ s t : State, s.phase ≠ .idle → s.phase ≠ .txBuild → s.phase ≠ .txSend → codecStep s = .next t →
    t.phase = .idle → t.result ≠ 0 →
    (∀ a, Memory.find t.fb a = none) ∧ (∀ a, fbByte t a = Config.freeFb s.draws a) ∧
    t.typ = Config.freeType (s.draws + 1) ∧ t.dlen = Config.freeDlen (s.draws + 1) ∧
    t.tmr = Config.freeTmr (s.draws + 1) ∧ t.sum = Config.freeSum (s.draws + 2) ∧ t.draws = s.draws + 3 ∧
    t.settleMs = s.settleMs ∧ t.txw = s.txw ∧ t.rxErr = s.rxErr

/-- rx_err found at 1 at any of the three points ends DECODE with IoError and consumes nothing; the delay and the check do
not look at it (R142). -/
def Obligations.TransportErrorEndsDecode : Prop :=
  (∀ s : State, s.rxErr = true → s.phase = .rxWait ∨ s.phase = .rxHdr ∨ s.phase = .rxBody →
    ∃ t, codecStep s = .next t ∧ t.result = 4 ∧ t.done = true ∧ t.busy = false ∧ t.phase = .idle ∧ t.rxq = s.rxq ∧
      t.rxErr = s.rxErr ∧ t.txw = s.txw ∧ t.settleMs = s.settleMs) ∧
  (∀ (s t : State) (e : Bool), s.phase = .rxSettle ∨ s.phase = .rxCheck → codecStep s = .next t →
    codecStep { s with rxErr := e } = .next { t with rxErr := e })

/-- TX_BUILD (R112): DLEN above 252 ends with BadLength, FB and TXW untouched (R111; log entry 23) and SUM a free
value (log entry 7); otherwise FB[0..3] get the header of the operands, the other bytes of FB and the operands stand,
and TX_SEND is entered. -/
def Obligations.BuildStepWritesTheHeader : Prop :=
  ∀ s : State, s.phase = .txBuild →
    (252 < s.dlen.toNat → ∃ t, codecStep s = .next t ∧ t.result = 5 ∧ t.done = true ∧ t.busy = false ∧
      t.phase = .idle ∧ (∀ a, fbByte t a = fbByte s a) ∧ t.txw = s.txw ∧ t.typ = s.typ ∧ t.dlen = s.dlen ∧
      t.tmr = s.tmr ∧ t.sum = Config.freeSum s.draws ∧ t.draws = s.draws + 1) ∧
    (s.dlen.toNat ≤ 252 → ∃ t, codecStep s = .next t ∧ t.phase = .txSend ∧
      fbByte t 0 = 0x81 ∧ (fbByte t 1).toNat = s.dlen.toNat + 2 ∧ fbByte t 2 = s.typ ∧
      fbByte t 3 = sum8 (fbSlice s 4 s.dlen.toNat) ∧ t.sum = fbByte t 3 ∧ (∀ a, 4 ≤ a → fbByte t a = fbByte s a) ∧
      { t with phase := s.phase, sum := s.sum, fb := s.fb } = s)

/-- TX_SEND (R112, R113, R57): the transport accepts some `k` of the image's bytes; exactly those join TXW; all of them is
Ok, fewer is IoError; the operands, the window and TMR stand. FB[0..3] are then unspecified, each reading as the free
value of a new generation, and SUM is a free value (R38; log entries 5, 6 and 7). -/
def Obligations.SendStepAppendsAnAcceptedPart : Prop :=
  ∀ s : State, s.phase = .txSend → s.dlen.toNat ≤ 252 →
    ∃ (k : Nat) (t : State), codecStep s = .next t ∧ k ≤ 4 + s.dlen.toNat ∧
      t.txw = s.txw ++ (fbSlice s 0 (4 + s.dlen.toNat)).take k ∧
      t.result = (if k < 4 + s.dlen.toNat then 4 else 0) ∧ t.done = true ∧ t.busy = false ∧ t.phase = .idle ∧
      (∀ n, s.txNext = .exactly n → k = min n (4 + s.dlen.toNat)) ∧ (s.txNext = .all → k = 4 + s.dlen.toNat) ∧
      t.typ = s.typ ∧ t.dlen = s.dlen ∧ t.settleMs = s.settleMs ∧ t.rxq = s.rxq ∧ t.tmr = s.tmr ∧
      (∀ a, 4 ≤ a → a < 256 → fbByte t a = fbByte s a) ∧
      (∀ a, a < 4 → Memory.find t.fb a = none ∧ fbByte t a = Config.freeFb (s.draws + 1) a) ∧
      t.sum = Config.freeSum (s.draws + 2) ∧ t.draws = s.draws + 3

/-- ENCODE's two steps neither look at nor change the receive side (R114). -/
def Obligations.EncodeIgnoresTheReceiveSide : Prop :=
  ∀ (s t : State) (q : List Byte) (e : Bool), s.phase = .txBuild ∨ s.phase = .txSend → codecStep s = .next t →
    codecStep { s with rxq := q, rxErr := e } = .next { t with rxq := q, rxErr := e } ∧
    t.rxq = s.rxq ∧ t.rxErr = s.rxErr

/-! ### The machine against the operations (levels 3 and 2) -/

/-- ENCODE on the machine is ENCODE of R110: the command and the codec's two steps give the result and the bytes of
`encodeOp` (the model's transcription of R110, log entry 20) on the operands as they stood, for the `k` bytes the
transport accepts; the operands stand (R7, R112, R115). -/
def Obligations.EncodeRealisesTheOperation : Prop :=
  ∀ s : State, s.busy = false →
    ∃ (k : Nat) (t : State),
      Sys2Proof.core.run 3 (withAgenda [.host (encodeLine .encode), .codec, .codec] s) = .next t ∧
      k ≤ 4 + s.dlen.toNat ∧ (s.txNext = .all → k = 4 + s.dlen.toNat) ∧
      t.result = (encodeOp s.typ (fbSlice s 4 s.dlen.toNat) k).1.code ∧
      t.txw = s.txw ++ (encodeOp s.typ (fbSlice s 4 s.dlen.toNat) k).2 ∧
      t.phase = .idle ∧ t.busy = false ∧ t.done = true ∧ t.typ = s.typ ∧ t.dlen = s.dlen ∧
      t.settleMs = s.settleMs ∧ t.rxq = s.rxq ∧ t.rxErr = s.rxErr ∧
      (∀ a, 4 ≤ a → a < 256 → fbByte t a = fbByte s a)

/-- DECODE on the machine from its header read on is DECODE of R130: with `a` arriving and rx_err becoming `e` between the
two reads, the codec's steps give the outcome, the consumption and the payload of `decodeOp` (R7, R140, R144; `decodeOp` is
the model's transcription of R130 from its step 3 on, log entry 20). -/
def Obligations.DecodeRealisesTheOperation : Prop :=
  ∀ (s : State) (a : List Byte) (e : Bool), s.phase = .rxHdr →
    ∃ t : State,
      Sys2Proof.core.run 5 (withAgenda [.codec, .rx a, .rxErr e, .codec, .codec] s) = .next t ∧
      t.result = (decodeOp s.rxErr e s.rxq a).1.kind.code ∧
      t.rxq = (s.rxq ++ a).drop (decodeOp s.rxErr e s.rxq a).2 ∧
      t.phase = .idle ∧ t.busy = false ∧ t.done = true ∧ t.settleMs = s.settleMs ∧ t.txw = s.txw ∧
      ∀ (ty : Byte) (d : List Byte), (decodeOp s.rxErr e s.rxq a).1 = .ok ty d →
        t.typ = ty ∧ t.dlen.toNat = d.length ∧ fbSlice t 4 d.length = d

/-- The whole DECODE command (R130): taken when not BUSY, with a byte queued and no error at the wait, through SETTLE_MS
ticks, after which `b` arrives before the codec leaves the delay, to the outcome, consumption and payload of `decodeOp`
(log entry 20) on what is queued at each read. -/
def Obligations.DecodeCommandRunsToItsResult : Prop :=
  ∀ (s : State) (b a : List Byte) (e e' : Bool), s.busy = false → s.rxErr = false → s.rxq ≠ [] →
    ∃ t : State,
      Sys2Proof.core.run (2 + s.settleMs.toNat + 8)
        (withAgenda ([.host (encodeLine .decode), .codec] ++ List.replicate s.settleMs.toNat .tick ++
          [.rx b, .rxErr e, .codec, .codec, .rx a, .rxErr e', .codec, .codec]) s) = .next t ∧
      t.result = (decodeOp e e' (s.rxq ++ b) a).1.kind.code ∧
      t.rxq = (s.rxq ++ b ++ a).drop (decodeOp e e' (s.rxq ++ b) a).2 ∧
      t.phase = .idle ∧ t.busy = false ∧ t.done = true ∧ t.settleMs = s.settleMs ∧ t.txw = s.txw ∧
      ∀ (ty : Byte) (d : List Byte), (decodeOp e e' (s.rxq ++ b) a).1 = .ok ty d →
        t.typ = ty ∧ t.dlen.toNat = d.length ∧ fbSlice t 4 d.length = d

/-- What ENCODE sends, DECODE gives back: the operands of an ENCODE wholly accepted, its bytes looped back into an empty
queue, come out of DECODE as the payload, Ok, the queue empty again (R144, R95 (a)). -/
def Obligations.LoopBackRoundTrip : Prop :=
  ∀ s : State, s.busy = false → s.rxErr = false → s.rxq = [] → s.txNext = .all → s.dlen.toNat ≤ 252 →
    ∃ t u : State,
      Sys2Proof.core.run 3 (withAgenda [.host (encodeLine .encode), .codec, .codec] s) = .next t ∧
      Sys2Proof.core.run (3 + s.settleMs.toNat + 4)
        (withAgenda ([.rx (t.txw.drop s.txw.length), .host (encodeLine .decode), .codec] ++
          List.replicate s.settleMs.toNat .tick ++ [.codec, .codec, .codec, .codec]) t) = .next u ∧
      u.result = 0 ∧ u.done = true ∧ u.busy = false ∧ u.typ = s.typ ∧ u.dlen = s.dlen ∧
      fbSlice u 4 s.dlen.toNat = fbSlice s 4 s.dlen.toNat ∧ u.rxq = []

/-! ### The whole machine -/

/-- The invariant holds at reset. -/
def Obligations.ResetMeetsTheInvariant : Prop :=
  Inv State.reset

/-- Every step of every agent keeps the invariant: flags and phase agree (R24, R31), RESULT is a code (R25), FB keeps its
form, and each phase finds in FB and TMR what the phase before it left (R51, R112, R140). -/
def Obligations.StepKeepsTheInvariant : Prop :=
  ∀ s t : State, Inv s → step s = .next t → Inv t

/-- From a state of the invariant no step faults: no rule reaches FB beyond its end (R51). -/
def Obligations.NoStepFaults : Prop :=
  ∀ s : State, Inv s → NoFault (step s)

/-- BUSY, DONE and RESULT change by a CMD write taken while not BUSY, by the end of an operation or by reset, whichever
agent moves and when the outside is silent too (R36); no other instruction and no environment event changes them or the
phase, and a codec step in IDLE, or one that does not end the operation, changes none of them. FRAME.SET is a CMD write
among others (log entry 13). -/
def Obligations.FlagsChangeOnlyByCommandAndEnd : Prop :=
  ∀ s t : State,
    (step s = .next t →
      (t.busy = s.busy ∧ t.done = s.done ∧ t.result = s.result) ∨
      s.agenda.head? = some .reset ∨
      (s.busy = false ∧ ∃ line i, s.agenda.head? = some (.host line) ∧ decodeLine line = .ok i ∧
        (i = .encode ∨ i = .decode ∨ (∃ c, i = .wrCmd c) ∨ ∃ uu ll ff vv, i = .frameSet uu ll ff vv)) ∨
      ((s.agenda.head? = some .codec ∨ s.agenda = []) ∧ s.phase ≠ .idle ∧ t.phase = .idle)) ∧
    (∀ i : Instr, i ≠ .encode → i ≠ .decode → (∀ c, i ≠ .wrCmd c) → (∀ uu ll ff vv, i ≠ .frameSet uu ll ff vv) →
      exec i s = .next t → t.busy = s.busy ∧ t.done = s.done ∧ t.result = s.result ∧ t.phase = s.phase) ∧
    (∀ (rest : List Turn) (u : Turn), s.agenda = u :: rest →
      (∃ bs, u = .rx bs) ∨ (∃ e, u = .rxErr e) ∨ u = .tick ∨ (∃ k, u = .txAcc k) → step s = .next t →
      t.busy = s.busy ∧ t.done = s.done ∧ t.result = s.result ∧ t.phase = s.phase) ∧
    (codecStep s = .next t → s.phase = .idle ∨ t.phase ≠ .idle →
      t.busy = s.busy ∧ t.done = s.done ∧ t.result = s.result)

/-- An operation ends, but for reset, with DONE 1, PHASE IDLE and a result code (R9, R190). -/
def Obligations.OperationsEndWithDone : Prop :=
  ∀ s t : State, Inv s → step s = .next t → s.busy = true → t.busy = false →
    s.agenda.head? = some .reset ∨ (t.done = true ∧ t.phase = .idle ∧ t.result.toNat ≤ 5)

/-- SETTLE_MS changes by a WR SETTLE_MS of the host while not BUSY, or by reset, and by nothing else (R28). -/
def Obligations.SettleChangesOnlyByItsWrite : Prop :=
  ∀ s t : State, step s = .next t →
    t.settleMs = s.settleMs ∨ (s.agenda.head? = some .reset ∧ t.settleMs = 300) ∨
    (s.busy = false ∧ ∃ line, s.agenda.head? = some (.host line) ∧ decodeLine line = .ok (.wrSettleMs t.settleMs))

/-- The block never changes rx_err (R56): only the receive environment does. -/
def Obligations.ErrorLevelIsTheTransports : Prop :=
  ∀ s t : State, step s = .next t → t.rxErr = s.rxErr ∨ s.agenda.head? = some (.rxErr t.rxErr)

/-- RXQ is first in, first out (R54, R60): a step leaves it, or adds at its tail the bytes of the `rx` turn or of the wire
line taken (select 5, log entries 1 and 12), or is the codec's and takes off its head two bytes in RX_HDR, LEN bytes
(at most 254) in RX_BODY, or as many as there are. -/
def Obligations.ReceiveQueueIsFifo : Prop :=
  ∀ s t : State, Inv s → step s = .next t →
    t.rxq = s.rxq ∨
    (∃ bs, s.agenda.head? = some (.rx bs) ∧ t.rxq = s.rxq ++ bs) ∨
    (∃ bs, s.agenda.head? = some (.host (0x05 :: bs)) ∧ t.rxq = s.rxq ++ bs) ∨
    ((s.agenda.head? = some .codec ∨ s.agenda = []) ∧
      ((s.phase = .rxHdr ∧ t.rxq = s.rxq.drop 2) ∨
       (s.phase = .rxBody ∧ (fbByte s 1).toNat ≤ 254 ∧ t.rxq = s.rxq.drop (fbByte s 1).toNat)))

/-- Nothing but leading parts of whole frames of the operands ever goes out (R60, R110, R113): a step appends to TXW some
first bytes of the frame of TYPE and the window, in TX_SEND, and otherwise nothing. -/
def Obligations.OnlyFramesGoOnTheWire : Prop :=
  ∀ s t : State, Inv s → step s = .next t →
    t.txw = s.txw ∨
    (s.phase = .txSend ∧ ∃ k, t.txw = s.txw ++ (frameBytes s.typ (fbSlice s 4 s.dlen.toNat)).take k)
end

