-- ==== Sys2Proof/Laws/Frame.lean ====
section
/-! SUPPORT. Small laws of the frame format's functions, so that proofs need not unfold the fold of `sum8` or the chain of
tests of `parseFrame`. -/

namespace Sys2Proof.Machine

theorem sum8_nil : sum8 [] = 0 := rfl

theorem sum8_snoc (s : List Byte) (b : Byte) : sum8 (s ++ [b]) = sum8 s + b := by simp [sum8]

theorem sum8_foldl (s : List Byte) (a : Byte) : s.foldl (· + ·) a = a + sum8 s := by
  unfold sum8
  induction s generalizing a with
  | nil => simp
  | cons b s ih => simp only [List.foldl_cons]; rw [ih, ih (0 + b)]; simp [BitVec.add_assoc]

theorem sum8_cons (s : List Byte) (b : Byte) : sum8 (b :: s) = b + sum8 s := by
  conv_lhs => rw [sum8, List.foldl_cons, sum8_foldl]
  simp

theorem sum8_append (s t : List Byte) : sum8 (s ++ t) = sum8 s + sum8 t := by
  conv_lhs => rw [sum8, List.foldl_append, sum8_foldl]
  rfl

theorem frameBytes_length (t : Byte) (d : List Byte) : (frameBytes t d).length = Config.frameOverhead + d.length := by
  simp only [frameBytes, List.length_append, List.length_cons, List.length_nil, Config.frameOverhead]

/-- A stream that begins with a good header and as many body bytes as its length byte says is decided by the checksum. -/
theorem parseFrame_whole (m l t c : Byte) (x r : List Byte) (hm : m = Config.magic) (hl : lenLegal l.toNat = true)
    (hx : x.length + 2 = l.toNat) :
    parseFrame ([m, l, t, c] ++ x ++ r)
      = if sum8 x ≠ c then (.fail .checksumMismatch, 2 + l.toNat) else (.ok t x, 2 + l.toNat) := by
  subst hm
  have e : List.take (l.toNat - 2) (x ++ r) = x := by rw [← hx]; simp
  have h3 : ¬ (Config.magic :: l :: t :: c :: (x ++ r)).length < 2 + l.toNat := by simp; omega
  unfold parseFrame
  simp only [Config.hdrBytes, Config.lenOverhead, Config.frameOverhead]
  rw [if_neg (by simp)]
  simp only [List.cons_append, List.nil_append, List.getD_cons_zero, List.getD_cons_succ, hl, h3, List.drop_succ_cons,
    List.drop_zero, e, ne_eq, not_true_eq_false, if_false, Bool.not_true, Bool.false_eq_true]

end Sys2Proof.Machine
end

