-- ==== Sys2Proof/Laws/Step.lean ====
section
/-! SUPPORT. What a host's access and a codec step can do, said once: the proofs about every step go through these two
inversion lemmas and never unfold a meaning or a phase. -/

namespace Sys2Proof.Machine

/-- What an instruction that completes has done. -/
inductive Executed (i : Instr) (s : State) : State → Prop where
  /-- Nothing: NOP, RESERVED3, and whatever is ignored or dropped while BUSY. -/
  | unchanged : Executed i s s
  /-- An operation was started. -/
  | started (p : Phase) (hb : s.busy = false) (hp : p = .txBuild ∨ p = .rxWait)
      (hi : i = .encode ∨ i = .decode ∨ ∃ c, i = .wrCmd c) :
      Executed i s { s with busy := true, done := false, phase := p }
  /-- SETTLE_MS was written. -/
  | settle (v : Word) (hb : s.busy = false) (hi : i = .wrSettleMs v) : Executed i s { s with settleMs := v }
  /-- TYPE was written. -/
  | type (v : Byte) (hb : s.busy = false) (hi : i = .wrType v) : Executed i s { s with typ := v }
  /-- DLEN was written. -/
  | dlen (v : Byte) (hb : s.busy = false) (hi : i = .wrDlen v) : Executed i s { s with dlen := v }
  /-- A window byte was written. -/
  | window (n : Nat) (b : Byte) (hb : s.busy = false) (hn : n < Config.maxData) (hi : i = .wrd n b) :
      Executed i s (fbSet (dbufIndex n) b s)
  /-- A value was returned. -/
  | read (v : Word) (d : Nat) : Executed i s { s with rdata := v, draws := d }
  /-- A frame arrived. -/
  | arrived (t : Byte) (d : List Byte) (hi : i = .frame t d) : Executed i s { s with rxq := s.rxq ++ frameBytes t d }
  /-- The set payload was loaded and ENCODE started. -/
  | loaded (uu ll ff vv : Byte) (hb : s.busy = false) (hi : i = .frameSet uu ll ff vv) :
      Executed i s { s with
        typ := Config.typeSet, dlen := 7, busy := true, done := false, phase := .txBuild
        fb := Memory.insertAll s.fb Config.frameOverhead (setData uu ll ff vv) }

theorem takeCommand_executed {i : Instr} (c : BitVec 2) (s : State)
    (hi : i = .encode ∨ i = .decode ∨ ∃ c, i = .wrCmd c) : Executed i s (takeCommand c s) := by
  cases hb : s.busy
  · by_cases h1 : c = 1
    · rw [h1, takeCommand_encode hb]; exact .started _ hb (.inl rfl) hi
    · by_cases h2 : c = 2
      · rw [h2, takeCommand_decode hb]; exact .started _ hb (.inr rfl) hi
      · rw [takeCommand_none s h1 h2]; exact .unchanged
  · rw [takeCommand_busy c hb]; exact .unchanged

theorem hostWrite_executed {i : Instr} {t s : State} (h : s.busy = false → Executed i s t) :
    Executed i s (hostWrite t s) := by
  cases hb : s.busy
  · rw [hostWrite_idle hb]; exact h hb
  · rw [hostWrite_busy hb]; exact .unchanged

theorem hostReadIdle_executed {i : Instr} (v free : Word) (s : State) : Executed i s (hostReadIdle v free s) := by
  unfold hostReadIdle
  split_ifs
  · exact .read free (s.draws + 1)
  · exact .read v s.draws

/-- Every completed instruction did one of these. -/
theorem exec_executed {i : Instr} {s t : State} (h : exec i s = .next t) : Executed i s t := by
  cases i with
  | nop => cases h; rw [takeCommand_none s (by decide) (by decide)]; exact .unchanged
  | reserved3 => cases h; rw [takeCommand_none s (by decide) (by decide)]; exact .unchanged
  | encode => cases h; exact takeCommand_executed _ s (.inl rfl)
  | decode => cases h; exact takeCommand_executed _ s (.inr (.inl rfl))
  | wrCmd c => cases h; exact takeCommand_executed _ s (.inr (.inr ⟨c, rfl⟩))
  | wrSettleMs v => cases h; exact hostWrite_executed (fun hb => .settle v hb rfl)
  | wrType v => cases h; exact hostWrite_executed (fun hb => .type v hb rfl)
  | wrDlen v => cases h; exact hostWrite_executed (fun hb => .dlen v hb rfl)
  | wrd n b =>
    simp only [exec, execWrd] at h
    split_ifs at h with hn
    cases h; exact hostWrite_executed (fun hb => .window n b hb hn rfl)
  | rdStatus => cases h; exact .read _ s.draws
  | rdSettleMs => cases h; exact .read _ s.draws
  | rdResult => cases h; exact hostReadIdle_executed _ _ s
  | rdType => cases h; exact hostReadIdle_executed _ _ s
  | rdDlen => cases h; exact hostReadIdle_executed _ _ s
  | rdd n =>
    simp only [exec, execRdd] at h
    split_ifs at h with hn
    cases h; exact hostReadIdle_executed _ _ s
  | frame t d =>
    simp only [exec, execFrame] at h
    split_ifs at h with hn
    rw [arrive_eq] at h
    cases h; exact .arrived t d rfl
  | frameSet uu ll ff vv =>
    cases hb : s.busy
    · rw [show exec (.frameSet uu ll ff vv) s = execFrameSet uu ll ff vv s from rfl, execFrameSet_idle uu ll ff vv hb] at h
      cases h; exact .loaded uu ll ff vv hb rfl
    · cases h
      rw [writeType, hostWrite_busy hb, writeDlen, hostWrite_busy hb, writeDbufs_busy _ _ hb, takeCommand_busy _ hb]
      exact .unchanged

/-- What a codec step that does not fault has done. -/
inductive Sequenced (s : State) : State → Prop where
  /-- Nothing: IDLE, or the phase's step is not enabled. -/
  | unchanged : Sequenced s s
  /-- A DECODE failed: `n` bytes were taken off the queue, FB and SUM were whatever they were. -/
  | failed (k : Kind) (n : Nat) (fb : List Host.Cell) (sum : Byte) (hk : k ≠ .ok) (hn : n ≤ 255)
      (hp : s.phase = .rxWait ∨ s.phase = .rxHdr ∨ s.phase = .rxBody ∨ s.phase = .rxCheck)
      (hq : n = 0 ∨ (s.phase = .rxHdr ∧ n = 2) ∨ (s.phase = .rxBody ∧ n = (fbByte s 1).toNat)) :
      Sequenced s (failDecode k { s with rxq := s.rxq.drop n, fb := fb, sum := sum })
  /-- A byte was there: the delay begins. -/
  | waited (hp : s.phase = .rxWait) (he : s.rxErr = false) (hq : s.rxq ≠ []) :
      Sequenced s { s with tmr := s.settleMs, phase := .rxSettle }
  /-- The delay is over. -/
  | settled (hp : s.phase = .rxSettle) (ht : s.tmr = 0) : Sequenced s { s with phase := .rxHdr }
  /-- A good header was read. -/
  | header (hp : s.phase = .rxHdr) (m l : Byte) (q : List Byte) (hq : s.rxq = m :: l :: q) (hm : m = Config.magic)
      (hl : lenLegal l.toNat = true) :
      Sequenced s { s with phase := .rxBody, rxq := q, fb := Memory.insertAll s.fb 0 [m, l] }
  /-- A whole body was read. -/
  | body (hp : s.phase = .rxBody) (l : Nat) (hl : (fbByte s 1).toNat = l) (hq : l ≤ s.rxq.length) (hb : 2 + l ≤ 256) :
      Sequenced s { s with
        phase := .rxCheck, rxq := s.rxq.drop l, fb := Memory.insertAll s.fb 2 (s.rxq.take l) }
  /-- The payload was delivered. -/
  | delivered (hp : s.phase = .rxCheck) (n : Nat) (hl : n = (fbByte s 1).toNat - 2) (d : Byte) :
      Sequenced s (deliver (fbByte s 2) n { s with sum := d })
  /-- DLEN was too long to send. -/
  | tooLong (hp : s.phase = .txBuild) (hl : Config.maxData < s.dlen.toNat) :
      Sequenced s (forgetSum (finish .badLength s))
  /-- The header was built. -/
  | built (hp : s.phase = .txBuild) (hl : s.dlen.toNat ≤ Config.maxData) :
      Sequenced s { buildHeader { s with sum := sum8 (fbSlice s Config.frameOverhead s.dlen.toNat) } with phase := .txSend }
  /-- Some leading part of the image was sent. -/
  | sent (hp : s.phase = .txSend) (k : Kind) (j : Nat) (hk : k = .ok ∨ k = .ioError) :
      Sequenced s (endEncode k (txAppend (fbSlice s 0 (Config.frameOverhead + s.dlen.toNat)) j s))

theorem checkHeader_sequenced {s : State} (hp : s.phase = .rxHdr) :
    Sequenced s (checkHeader (s.rxq.take 2).length
      { rxDrop 2 s with fb := Memory.insertAll s.fb 0 (s.rxq.take 2) }) := by
  have fail : ∀ k, k ≠ Kind.ok → Sequenced s (failDecode k
      { rxDrop 2 s with fb := Memory.insertAll s.fb 0 (s.rxq.take 2) }) := fun k hk =>
    .failed k 2 _ s.sum hk (by omega) (.inr (.inl hp)) (.inr (.inl ⟨hp, rfl⟩))
  unfold checkHeader
  split_ifs with h0 h1 h2
  · exact fail _ (by decide)
  · exact fail _ (by decide)
  · exact fail _ (by decide)
  · have hlen : 2 ≤ s.rxq.length := by
      simp only [List.length_take, Config.hdrBytes] at h0; omega
    match hq : s.rxq, hlen with
    | m :: l :: q, _ =>
      rw [hq] at h1 h2
      simp only [rxDrop] at h1 h2
      have e0 : fbByte { rxDrop 2 s with fb := Memory.insertAll s.fb 0 [m, l] } 0 = m := by
        simp [fbByte, Memory.find_insertAll]
      have e1 : fbByte { rxDrop 2 s with fb := Memory.insertAll s.fb 0 [m, l] } 1 = l := by
        simp [fbByte, Memory.find_insertAll]
      have hm : m = Config.magic := by
        by_contra hne; exact h1 (by rw [← e0] at hne; exact hne)
      have hl : lenLegal l.toNat = true := by
        by_contra hne
        refine h2 ?_
        have : lenLegal (fbByte { rxDrop 2 s with fb := Memory.insertAll s.fb 0 [m, l] } 1).toNat = false := by
          rw [e1]; exact Bool.eq_false_iff.mpr hne
        rw [Bool.not_eq_true']; exact this
      have := Sequenced.header hp m l q hq hm hl
      rw [show rxDrop 2 s = { s with rxq := q } by rw [rxDrop, hq]; rfl]
      exact this

theorem stepRxBody_sequenced {s t : State} (hp : s.phase = .rxBody) (h : stepRxBody s = .next t) : Sequenced s t := by
  unfold stepRxBody at h
  cases he : s.rxErr
  · simp only [he, Bool.false_eq_true, if_false] at h
    split at h
    · cases h
    · next u hw =>
      obtain ⟨hb, rfl⟩ := memWrite_eq_some.mp hw
      cases h
      unfold checkBody
      split_ifs with hn
      · exact .failed _ (fbByte s 1).toNat _ s.sum (by decide) (by have := (fbByte s 1).isLt; omega)
          (.inr (.inr (.inl hp))) (.inr (.inr ⟨hp, rfl⟩))
      · have hlen : (fbByte s 1).toNat ≤ s.rxq.length := by
          simp only [rxTaken, List.length_take] at hn; omega
        refine .body hp _ rfl hlen ?_
        have e : (rxTaken (fbByte s 1).toNat s).length = (fbByte s 1).toNat := by
          simp only [rxTaken, List.length_take]; omega
        rw [e] at hb; exact hb
  · simp only [he, if_true] at h
    cases h
    exact .failed .ioError 0 s.fb s.sum (by decide) (by omega) (.inr (.inr (.inl hp))) (.inl rfl)

/-- Every codec step that does not fault did one of these. -/
theorem codecStep_sequenced {s t : State} (h : codecStep s = .next t) : Sequenced s t := by
  cases hp : s.phase <;> simp only [codecStep, hp] at h
  case idle => cases h; exact .unchanged
  case rxWait =>
    unfold stepRxWait at h
    cases he : s.rxErr
    · rw [if_neg (by rw [he]; exact Bool.false_ne_true)] at h
      split_ifs at h with hr
      · cases h; exact .waited hp he (by simpa [rxReadable] using hr)
      · cases h; exact .unchanged
    · simp only [he, if_true] at h
      cases h; exact .failed .ioError 0 s.fb s.sum (by decide) (by omega) (.inl hp) (.inl rfl)
  case rxSettle =>
    unfold stepRxSettle at h
    split_ifs at h with ht
    · cases h; exact .settled hp ht
    · cases h; exact .unchanged
  case rxHdr =>
    cases he : s.rxErr
    · rw [stepRxHdr_eq he] at h; cases h; exact checkHeader_sequenced hp
    · simp only [stepRxHdr, he, if_true] at h
      cases h; exact .failed .ioError 0 s.fb s.sum (by decide) (by omega) (.inr (.inl hp)) (.inl rfl)
  case rxBody => exact stepRxBody_sequenced hp h
  case rxCheck =>
    unfold stepRxCheck at h
    simp only at h
    split at h
    · cases h
    · next d hd =>
      split_ifs at h with hs
      · cases h; exact .failed _ 0 s.fb _ (by decide) (by omega) (.inr (.inr (.inr hp))) (.inl rfl)
      · cases h; exact .delivered hp _ rfl _
  case txBuild =>
    rcases Nat.lt_or_ge Config.maxData s.dlen.toNat with hl | hl
    · rw [stepTxBuild_long hl] at h; cases h; exact .tooLong hp hl
    · rw [stepTxBuild_short hl] at h; cases h; exact .built hp hl
  case txSend =>
    unfold stepTxSend at h
    split at h
    · cases h
    · next f hf =>
      obtain ⟨hb, rfl⟩ := memRead_eq_some.mp hf
      cases h
      refine .sent hp _ _ ?_
      split_ifs
      · exact .inr rfl
      · exact .inl rfl

/-- The quiet step is a tick or a codec step. -/
theorem quietStep_cases {s t : State} (h : quietStep s = .next t) : t = clockTick s ∨ codecStep s = .next t := by
  unfold quietStep at h
  split_ifs at h
  · cases h; exact .inl rfl
  · exact .inr h

theorem clockTick_cases (s : State) :
    clockTick s = s ∨ (s.phase = .rxSettle ∧ s.tmr ≠ 0 ∧ clockTick s = { s with tmr := s.tmr - 1 }) := by
  unfold clockTick
  split_ifs with h
  · exact .inr ⟨h.1, h.2, rfl⟩
  · exact .inl rfl

/-- What one step of the machine has done: which agent moved, and how. -/
inductive Stepped (s : State) : State → Prop where
  /-- The host made an access. -/
  | access (line : List Byte) (rest : List Turn) (i : Instr) (t : State) (ha : s.agenda = .host line :: rest)
      (hd : decodeLine line = .ok i) (he : Executed i (withAgenda rest s) t) : Stepped s t
  /-- Bytes that make no frame arrived, on a line of the wire. -/
  | wire (bs : List Byte) (rest : List Turn) (ha : s.agenda = .host (selWire :: bs) :: rest) :
      Stepped s { withAgenda rest s with rxq := s.rxq ++ bs }
  /-- The codec moved, in its turn or because nobody else did. -/
  | codec (rest : List Turn) (t : State) (ha : s.agenda = .codec :: rest ∨ (s.agenda = [] ∧ rest = []))
      (hs : Sequenced (withAgenda rest s) t) : Stepped s t
  /-- Bytes arrived. -/
  | arrived (bs : List Byte) (rest : List Turn) (ha : s.agenda = .rx bs :: rest) :
      Stepped s { withAgenda rest s with rxq := s.rxq ++ bs }
  /-- The level rx_err was set. -/
  | level (e : Bool) (rest : List Turn) (ha : s.agenda = .rxErr e :: rest) :
      Stepped s { withAgenda rest s with rxErr := e }
  /-- A tick, counted. -/
  | counted (rest : List Turn) (ha : s.agenda = .tick :: rest ∨ (s.agenda = [] ∧ rest = [])) (hp : s.phase = .rxSettle)
      (ht : s.tmr ≠ 0) : Stepped s { withAgenda rest s with tmr := s.tmr - 1 }
  /-- A tick, not counted. -/
  | uncounted (rest : List Turn) (ha : s.agenda = .tick :: rest) : Stepped s (withAgenda rest s)
  /-- The transmit environment settled its choice. -/
  | accept (a : TxAccept) (rest : List Turn) (ha : s.agenda = .txAcc a :: rest) :
      Stepped s { withAgenda rest s with txNext := a }
  /-- The block was reset. -/
  | reset (rest : List Turn) (ha : s.agenda = .reset :: rest) : Stepped s (blockReset (withAgenda rest s))

/-- Every step that answers a next state did one of these. -/
theorem step_stepped {s t : State} (h : step s = .next t) : Stepped s t := by
  cases ha : s.agenda with
  | nil =>
    rw [step_nil ha] at h
    have e : s = withAgenda [] s := by simp only [withAgenda, ← ha]
    unfold quietStep at h
    split_ifs at h with hc
    · cases h
      have := Stepped.counted (s := s) [] (.inr ⟨ha, rfl⟩) hc.1 hc.2
      rw [← e] at this
      rw [show clockTick s = { s with tmr := s.tmr - 1 } from if_pos hc]
      exact this
    · refine .codec [] t (.inr ⟨ha, rfl⟩) ?_
      rw [← e]; exact codecStep_sequenced h
  | cons u rest =>
    rw [step_cons ha] at h
    cases u with
    | host line =>
      simp only [takeTurn, hostTurn] at h
      split at h
      · next i hd => exact .access line rest i t ha hd (exec_executed h)
      · next why hd =>
        by_cases hw : ∃ bs, line = selWire :: bs
        · obtain ⟨bs, rfl⟩ := hw
          rw [undecodedLine_wire] at h
          cases h; exact .wire bs rest ha
        · rw [undecodedLine_other (fun bs e => hw ⟨bs, e⟩)] at h
          cases h
    | codec => exact .codec rest t (.inl ha) (codecStep_sequenced h)
    | rx bs =>
      simp only [takeTurn] at h
      rw [arrive_eq] at h; cases h; exact .arrived bs rest ha
    | rxErr e => cases h; exact .level e rest ha
    | tick =>
      cases h
      rcases clockTick_cases (withAgenda rest s) with e | ⟨hp, ht, e⟩
      · rw [e]; exact .uncounted rest ha
      · rw [e]; exact .counted rest (.inl ha) hp ht
    | txAcc a => cases h; exact .accept a rest ha
    | reset => cases h; exact .reset rest ha

end Sys2Proof.Machine
end

