-- ==== Sys2Proof/Laws/Inv.lean ====
section
/-! SUPPORT. Small laws of the invariant: what it depends on, and what it says in the phases that ask nothing of FB. -/

namespace Sys2Proof.Machine

/-- The invariant depends on these fields alone. -/
theorem inv_congr {s t : State} (h : Inv s) (e1 : t.phase = s.phase) (e2 : t.busy = s.busy) (e3 : t.done = s.done)
    (e4 : t.result = s.result) (e5 : t.typ = s.typ) (e6 : t.dlen = s.dlen) (e7 : t.fb = s.fb) (e8 : t.hdrGen = s.hdrGen)
    (e9 : t.dataGen = s.dataGen) (e10 : t.tmr = s.tmr) : Inv t := by
  have b := fbByte_congr e7 e8 e9
  have c := fbSlice_congr e7 e8 e9
  obtain ⟨a1, a2, a3, a4, a5, a6, a7⟩ := h
  refine ⟨?_, ?_, ?_, ?_, ?_, ?_, ?_⟩
  · unfold FlagsAgree; rw [e1, e2, e3]; exact a1
  · unfold ResultIsCode; rw [e4]; exact a2
  · rw [e7]; exact a3
  · unfold HeaderRead Specified; rw [e1, b, e7]; exact a4
  · unfold BodyRead Specified; rw [e1, b, e7]; exact a5
  · unfold FrameBuilt; rw [e1, e6, e5, c]; exact a6
  · unfold TimerDone; rw [e1, e10]; exact a7

/-- In the phases before anything was read or built the invariant is the flags, the result and the memory's form. -/
theorem inv_before {s : State} (hf : FlagsAgree s) (hr : ResultIsCode s) (hm : Memory.wf s.fb)
    (hp : s.phase = .idle ∨ s.phase = .txBuild ∨ s.phase = .rxWait ∨ s.phase = .rxSettle) : Inv s := by
  refine ⟨hf, hr, hm, fun h => ?_, fun h => ?_, fun h => ?_, fun h => ?_⟩
  all_goals (rcases hp with e | e | e | e <;> rw [e] at h <;> simp at h)

theorem inv_idle {s : State} (h : Inv s) (hb : s.busy = false) : s.phase = .idle := by
  by_contra hc; have := h.flags.1.mpr hc; rw [hb] at this; cases this

theorem inv_withAgenda {s : State} (l : List Turn) (h : Inv s) : Inv (withAgenda l s) :=
  inv_congr h rfl rfl rfl rfl rfl rfl rfl rfl rfl rfl

theorem code_le (k : Kind) : k.code.toNat ≤ 5 := by cases k <;> exact Nat.le_of_ble_eq_true rfl

end Sys2Proof.Machine
end

