-- ==== Sys2Proof/Laws/Run.lean ====
section
/-! SUPPORT. Runs of several steps, in the machine's own `step`. -/

namespace Sys2Proof.Machine

theorem run_zero (s : State) : Sys2Proof.core.run 0 s = .next s := rfl

/-- One step, then the rest of the run. -/
theorem run_succ (k : Nat) (s : State) : Sys2Proof.core.run (k + 1) s =
    match step s with
    | .next t => Sys2Proof.core.run k t
    | .fault r => .fault r
    | .refused r => .refused r := by
  simp only [Host.Core.run]
  have h : Sys2Proof.core.step s = step s := rfl
  rw [h]; cases step s <;> rfl

theorem run_next {k : Nat} {s t : State} (h : step s = .next t) :
    Sys2Proof.core.run (k + 1) s = Sys2Proof.core.run k t := by
  rw [run_succ, h]

/-- A run that reaches `t` goes on from `t`. -/
theorem run_add {j k : Nat} {s t : State} (h : Sys2Proof.core.run j s = .next t) :
    Sys2Proof.core.run (j + k) s = Sys2Proof.core.run k t := by
  induction j generalizing s with
  | zero => cases h; rw [Nat.zero_add]
  | succ j ih =>
    rw [show j + 1 + k = (j + k) + 1 by omega, run_succ]
    rw [run_succ] at h
    revert h
    cases step s with
    | next u => exact ih
    | fault r => intro h; cases h
    | refused r => intro h; cases h

/-! ### Nothing but the choice of the next turn reads the agenda -/

/-- The outcome with its next state's agenda replaced. -/
def Outcome.withAgenda (l : List Turn) (o : Host.Outcome State Fault Refusal) : Host.Outcome State Fault Refusal :=
  match o with
  | .next t => .next (Machine.withAgenda l t)
  | .fault r => .fault r
  | .refused r => .refused r

theorem fbByte_withAgenda (l : List Turn) (s : State) : fbByte (withAgenda l s) = fbByte s := rfl

theorem exec_withAgenda (l : List Turn) (i : Instr) (s : State) :
    exec i (withAgenda l s) = Outcome.withAgenda l (exec i s) := by
  have hw : ∀ (d : List Byte) (j : Nat) (u : State),
      writeDbufs j d (withAgenda l u) = withAgenda l (writeDbufs j d u) := by
    intro d
    induction d with
    | nil => intro j u; rfl
    | cons b d ih =>
      intro j u
      rw [writeDbufs, writeDbufs, ← ih]
      congr 1
      simp only [writeDbuf, hostWrite, apply_ite (withAgenda l)]; rfl
  have hc : ∀ (c : BitVec 2) (u : State), takeCommand c (withAgenda l u) = withAgenda l (takeCommand c u) := by
    intro c u; simp only [takeCommand, apply_ite (withAgenda l)]; rfl
  have ht : ∀ (v : Byte) (u : State), writeType v (withAgenda l u) = withAgenda l (writeType v u) := by
    intro v u; simp only [writeType, hostWrite, apply_ite (withAgenda l)]; rfl
  have hd : ∀ (v : Byte) (u : State), writeDlen v (withAgenda l u) = withAgenda l (writeDlen v u) := by
    intro v u; simp only [writeDlen, hostWrite, apply_ite (withAgenda l)]; rfl
  cases i with
  | nop | encode | decode | reserved3 => exact congrArg Host.Outcome.next (hc _ s)
  | wrCmd c => exact congrArg Host.Outcome.next (hc c s)
  | wrSettleMs v => simp only [exec, execWrSettleMs, writeSettle, hostWrite, Outcome.withAgenda, apply_ite (withAgenda l)]; rfl
  | wrType v => simp only [exec, execWrType, writeType, hostWrite, Outcome.withAgenda, apply_ite (withAgenda l)]; rfl
  | wrDlen v => simp only [exec, execWrDlen, writeDlen, hostWrite, Outcome.withAgenda, apply_ite (withAgenda l)]; rfl
  | wrd n b => 
    simp only [exec, execWrd, writeDbuf, hostWrite, apply_ite (Outcome.withAgenda l)]
    simp only [Outcome.withAgenda, apply_ite (withAgenda l)]; rfl
  | rdStatus | rdSettleMs => rfl
  | rdResult => simp only [exec, execRdResult, hostReadIdle, Outcome.withAgenda, apply_ite (withAgenda l)]; rfl
  | rdType => simp only [exec, execRdType, hostReadIdle, Outcome.withAgenda, apply_ite (withAgenda l)]; rfl
  | rdDlen => simp only [exec, execRdDlen, hostReadIdle, Outcome.withAgenda, apply_ite (withAgenda l)]; rfl
  | rdd n => 
    simp only [exec, execRdd, hostReadIdle, apply_ite (Outcome.withAgenda l)]
    simp only [Outcome.withAgenda, apply_ite (withAgenda l)]; rfl
  | frame t d => simp only [exec, execFrame, arrive, apply_ite (Outcome.withAgenda l)]; rfl
  | frameSet uu ll ff vv =>
    refine congrArg Host.Outcome.next ?_
    rw [← hc, ← hw]
    rw [← hd, ← ht]

theorem codecStep_withAgenda (l : List Turn) (s : State) :
    codecStep (withAgenda l s) = Outcome.withAgenda l (codecStep s) := by
  have hr : ∀ a n, memRead (withAgenda l s) a n = memRead s a n := fun _ _ => rfl
  have hw : ∀ a bs (u : State), memWrite a bs (withAgenda l u) = (memWrite a bs u).map (withAgenda l) := by
    intro a bs u; unfold memWrite; split_ifs <;> rfl
  cases hp : s.phase <;> simp only [codecStep, withAgenda_phase, hp]
  case idle => rfl
  case rxWait => simp only [stepRxWait, apply_ite (Outcome.withAgenda l)]; rfl
  case rxSettle => simp only [stepRxSettle, apply_ite (Outcome.withAgenda l)]; rfl
  case rxHdr =>
    unfold stepRxHdr; rw [withAgenda_rxErr]
    cases s.rxErr
    · have e : rxDrop Config.hdrBytes (withAgenda l s) = withAgenda l (rxDrop Config.hdrBytes s) := rfl
      simp only [Bool.false_eq_true, if_false, e, hw, rxTaken, withAgenda_rxq]
      cases memWrite 0 (s.rxq.take Config.hdrBytes) (rxDrop Config.hdrBytes s) with
      | none => rfl
      | some u =>
        simp only [Option.map_some]
        refine congrArg Host.Outcome.next ?_
        simp only [checkHeader, apply_ite (withAgenda l)]; rfl
    · rfl
  case rxBody =>
    unfold stepRxBody; rw [withAgenda_rxErr, fbByte_withAgenda]
    cases s.rxErr
    · have e : ∀ n, rxDrop n (withAgenda l s) = withAgenda l (rxDrop n s) := fun _ => rfl
      simp only [Bool.false_eq_true, if_false, e, hw, rxTaken, withAgenda_rxq]
      cases memWrite Config.hdrBytes (s.rxq.take (fbByte s 1).toNat) (rxDrop (fbByte s 1).toNat s) with
      | none => rfl
      | some u =>
        simp only [Option.map_some]
        refine congrArg Host.Outcome.next ?_
        simp only [checkBody, apply_ite (withAgenda l)]; rfl
    · rfl
  case rxCheck =>
    unfold stepRxCheck; rw [fbByte_withAgenda]; simp only [hr]
    cases memRead s Config.frameOverhead ((fbByte s 1).toNat - Config.lenOverhead) with
    | none => rfl
    | some d =>
      simp only [apply_ite (Outcome.withAgenda l)]; rfl
  case txBuild =>
    unfold stepTxBuild; rw [withAgenda_dlen, hr]
    by_cases h : Config.maxData < s.dlen.toNat
    · rw [if_pos h, if_pos h]; rfl
    · rw [if_neg h, if_neg h]
      cases memRead s Config.frameOverhead s.dlen.toNat <;> rfl
  case txSend =>
    unfold stepTxSend; rw [withAgenda_dlen, hr]
    cases memRead s 0 (Config.frameOverhead + s.dlen.toNat) <;> rfl

/-- A turn does the same whatever turns are to come. -/
theorem takeTurn_withAgenda (l : List Turn) (u : Turn) (s : State) :
    takeTurn u (withAgenda l s) = Outcome.withAgenda l (takeTurn u s) := by
  cases u with
  | host line =>
    show hostTurn line _ = Outcome.withAgenda l (hostTurn line s)
    unfold hostTurn
    cases decodeLine line with
    | ok i => exact exec_withAgenda l i s
    | error why =>
      show undecodedLine why line _ = Outcome.withAgenda l (undecodedLine why line s)
      unfold undecodedLine
      cases wireBytes line with
      | none => rfl
      | some bs => simp only [arrive, apply_ite (Outcome.withAgenda l)]; rfl
  | codec => exact codecStep_withAgenda l s
  | rx bs => simp only [takeTurn, arrive, apply_ite (Outcome.withAgenda l)]; rfl
  | rxErr e => rfl
  | tick =>
    refine congrArg Host.Outcome.next ?_
    simp only [clockTick, apply_ite (withAgenda l)]; rfl
  | txAcc a => rfl
  | reset => rfl

/-- A run whose next turn is `u`: the turn, then the run of the rest. -/
theorem run_cons {k : Nat} {u : Turn} {rest : List Turn} {s t : State} (h : takeTurn u s = .next t) :
    Sys2Proof.core.run (k + 1) (withAgenda (u :: rest) s) = Sys2Proof.core.run k (withAgenda rest t) := by
  refine run_next ((step_cons (s := withAgenda (u :: rest) s) rfl).trans ?_)
  show takeTurn u (withAgenda rest s) = _
  rw [takeTurn_withAgenda, h]; rfl

theorem takeTurn_codec (s : State) : takeTurn .codec s = codecStep s := rfl

theorem takeTurn_codec_idle {s : State} (h : s.phase = .idle) : takeTurn .codec s = .next s := by
  rw [takeTurn_codec]; simp only [codecStep, h]

theorem takeTurn_rx (bs : List Byte) (s : State) : takeTurn (.rx bs) s = .next { s with rxq := s.rxq ++ bs } :=
  arrive_eq bs s

/-- As many ticks as TMR holds run it down to 0 (R32). -/
theorem run_ticks (n k : Nat) (rest : List Turn) (s : State) (hp : s.phase = .rxSettle) (hn : s.tmr.toNat = n) :
    Sys2Proof.core.run (n + k) (withAgenda (List.replicate n .tick ++ rest) s)
      = Sys2Proof.core.run k (withAgenda rest { s with tmr := 0 }) := by
  induction n generalizing s with
  | zero =>
    have : s.tmr = 0 := BitVec.eq_of_toNat_eq hn
    rw [Nat.zero_add, ← this]; rfl
  | succ n ih =>
    have ht : s.tmr ≠ 0 := by intro h; rw [h] at hn; simp at hn
    have e1 : takeTurn .tick s = .next { s with tmr := s.tmr - 1 } := congrArg _ (if_pos ⟨hp, ht⟩)
    rw [show n + 1 + k = (n + k) + 1 by omega, List.replicate_succ, List.cons_append, run_cons e1]
    refine ih { s with tmr := s.tmr - 1 } hp ?_
    show (s.tmr - 1).toNat = n
    rw [BitVec.toNat_sub]; have := s.tmr.isLt; simp; omega

end Sys2Proof.Machine
end

