-- ==== Sys2Proof/Tests/Slice0.lean ====
section
/-! SUPPORT. The model's own tests: ill-formed terms refused, words written out by hand from the spec decoded, the spec's
vectors (95_test_vectors.md), and for each obligation with hypotheses a state that meets them. -/

namespace Sys2Proof.Tests

open Sys2Proof Sys2Proof.Machine

/-! ### Small states -/

/-- Reset, then BUSY in the phase `p`. -/
def at_ (p : Phase) : State := { State.reset with busy := true, phase := p }

/-- Waiting to read a header, `q` queued. -/
def hdr (q : List Byte) : State := { at_ .rxHdr with rxq := q }

/-- A good header with length byte `l` read, `q` queued. -/
def body (l : Byte) (q : List Byte) : State := { at_ .rxBody with fb := [(0, 0x81), (1, l)], rxq := q }

/-- A header with `LEN` = 3 and a body of type 7, checksum `c` and the data byte 0x2A read. -/
def check (c : Byte) : State := { at_ .rxCheck with fb := [(0, 0x81), (1, 3), (2, 7), (3, c), (4, 0x2A)] }

/-- A frame without data built, ready to send. -/
def send : State := { at_ .txSend with typ := 4, fb := [(0, 0x81), (1, 2), (2, 4), (3, 0)] }

/-- The next state, or reset where there is none. -/
def after (o : Host.Outcome State Fault Refusal) : State :=
  match o with
  | .next t => t
  | _ => State.reset

/-- The step completed. -/
def completes (o : Host.Outcome State Fault Refusal) : Bool :=
  match o with
  | .next _ => true
  | _ => false

/-- The reason the step was refused. -/
def reason (o : Host.Outcome State Fault Refusal) : Option Refusal :=
  match o with
  | .refused r => some r
  | _ => none

/-! ### Well-formedness: one ill-formed term for each check, and the edge inside it -/

theorem test_wf_window_write : (Instr.wrd 252 0).wf = false ∧ (Instr.wrd 251 0).wf = true := by decide
theorem test_wf_window_read : (Instr.rdd 252).wf = false ∧ (Instr.rdd 251).wf = true := by decide
theorem test_wf_frame_data :
    (Instr.frame 4 (List.replicate 253 0)).wf = false ∧ (Instr.frame 4 (List.replicate 252 0)).wf = true := by
  simp only [Instr.wf, List.length_replicate]; decide

/-! ### Decoding, from words written out by hand -/

/-- R92: `NOP` 0, `ENCODE` 1, `DECODE` 2, reserved 3; CMD is two bits wide (R23). -/
theorem test_decode_commands :
    decodeLine [0x00, 0b00] = .ok .nop ∧ decodeLine [0x00, 0b01] = .ok .encode ∧
    decodeLine [0x00, 0b10] = .ok .decode ∧ decodeLine [0x00, 0b11] = .ok .reserved3 ∧
    decodeLine [0x00, 0b100] = .error .noSuchCommand := by decide

/-- R22: register 0 CMD, 3 TYPE, 4 DLEN, 5 SETTLE_MS; 300 is 0x012C. -/
theorem test_decode_register_writes :
    decodeLine [0x01, 0, 0b10] = .ok (.wrCmd 2) ∧ decodeLine [0x01, 3, 0xFF] = .ok (.wrType 0xFF) ∧
    decodeLine [0x01, 4, 0xFC] = .ok (.wrDlen 252) ∧ decodeLine [0x01, 5, 0x2C, 0x01] = .ok (.wrSettleMs 300) := by decide

/-- R22: STATUS and RESULT are read only; there are no registers above 5. -/
theorem test_decode_register_writes_refused :
    decodeLine [0x01, 1, 0] = .error .readOnlyRegister ∧ decodeLine [0x01, 2, 0] = .error .readOnlyRegister ∧
    decodeLine [0x01, 6, 0] = .error .noSuchRegister ∧ decodeLine [0x01, 0, 4] = .error .noSuchCommand ∧
    decodeLine [0x01, 3] = .error .shortLine ∧ decodeLine [0x01, 3, 0, 0] = .error .trailingBytes := by decide

/-- R22: register 1 STATUS, 2 RESULT, 3 TYPE, 4 DLEN, 5 SETTLE_MS; CMD is write only (R23). -/
theorem test_decode_register_reads :
    decodeLine [0x02, 1] = .ok .rdStatus ∧ decodeLine [0x02, 2] = .ok .rdResult ∧ decodeLine [0x02, 3] = .ok .rdType ∧
    decodeLine [0x02, 4] = .ok .rdDlen ∧ decodeLine [0x02, 5] = .ok .rdSettleMs ∧
    decodeLine [0x02, 0] = .error .writeOnlyRegister ∧ decodeLine [0x02, 6] = .error .noSuchRegister := by decide

/-- R29: indexes 0 to 251. -/
theorem test_decode_window :
    decodeLine [0x03, 251, 0x7F] = .ok (.wrd 251 0x7F) ∧ decodeLine [0x03, 252, 0] = .error .noSuchWindowByte ∧
    decodeLine [0x04, 0] = .ok (.rdd 0) ∧ decodeLine [0x04, 252] = .error .noSuchWindowByte := by decide

/-- Vectors E1, E2 and E5 as lines: `MAGIC LEN TYPE CKS DATA` (R80). -/
theorem test_decode_frames :
    decodeLine [0x05, 0x81, 0x09, 0x04, 0x4A, 0x02, 0x01, 0x83, 0x60, 0x01, 0x41, 0x22]
      = .ok (.frame 0x04 [0x02, 0x01, 0x83, 0x60, 0x01, 0x41, 0x22]) ∧
    decodeLine [0x05, 0x81, 0x02, 0x04, 0x00] = .ok (.frame 0x04 []) ∧
    decodeLine [0x05, 0x81, 0x04, 0x00, 0x00, 0x80, 0x80] = .ok (.frame 0x00 [0x80, 0x80]) := by decide

/-- One line for each way a frame can be wrong (R81, R82, R85, R84). -/
theorem test_decode_frames_refused :
    decodeLine [0x05, 0x80, 0x02, 0x04, 0x00] = .error .frameBadMagic ∧
    decodeLine [0x05, 0x81, 0x01, 0x04, 0x00] = .error .frameBadLength ∧
    decodeLine [0x05, 0x81, 0x03, 0x04, 0x00] = .error .frameWrongSize ∧
    decodeLine [0x05, 0x81, 0x02, 0x04, 0x01] = .error .frameBadChecksum := by decide

/-- Vector E1 is the set frame of device 9601, function 0x41, value 0x22 (R180). -/
theorem test_decode_set_frame :
    decodeLine [0x06, 0x81, 0x09, 0x04, 0x4A, 0x02, 0x01, 0x83, 0x60, 0x01, 0x41, 0x22]
      = .ok (.frameSet 0x60 0x01 0x41 0x22) ∧
    decodeLine [0x06, 0x81, 0x09, 0x04, 0x4A, 0x02, 0x01, 0x84, 0x60, 0x01, 0x41, 0x21] = .error .notSetFrame := by decide

/-- Lines that are no access at all. -/
theorem test_decode_refused :
    decodeLine [] = .error .shortLine ∧ decodeLine [0x07, 0] = .error .noSuchSelect ∧
    decodeLine [0x00] = .error .shortLine ∧ decodeLine [0x02, 1, 0] = .error .trailingBytes := by decide

/-- The table's words, formats in the table's order (log entry 2). -/
theorem test_table_words :
    decodeTableWord 8 0 = some .nop ∧ decodeTableWord 8 1 = some .encode ∧ decodeTableWord 8 2 = some .decode ∧
    decodeTableWord 8 3 = some .reserved3 ∧ decodeTableWord 8 4 = some (.wrDlen 0) ∧
    decodeTableWord 8 5 = some (.wrSettleMs 0) ∧ decodeTableWord 0 0 = some (.wrd 0 0) ∧
    decodeTableWord 8 0x81 = some (.frame 0 []) ∧ decodeTableWord 8 6 = none ∧
    decodeTableWord 88 0x8109040002018300000000 = some (.frameSet 0 0 0 0) := by decide

/-- R180, R81: a value byte 0x81 is an operand like any other, in either byte order (checksum 0x86 + 0x81 = 0x07). -/
theorem test_table_word_value_0x81 :
    decodeTableWord 88 0x8109040702018300000081 = some (.frameSet 0 0 0 0x81) ∧
    decodeTableWord 88 0x8109040002018300000081 = some (.frameSet 0 0 0 0x81) ∧
    decodeTableWord 88 0x8100000083010207040981 = some (.frameSet 0 0 0 0x81) := by decide

/-! ### The format: the spec's vectors -/

/-- Vectors E1, E5, E7. -/
theorem test_frame_bytes :
    frameBytes 0x04 [0x02, 0x01, 0x83, 0x60, 0x01, 0x41, 0x22]
      = [0x81, 0x09, 0x04, 0x4A, 0x02, 0x01, 0x83, 0x60, 0x01, 0x41, 0x22] ∧
    frameBytes 0x00 [0x80, 0x80] = [0x81, 0x04, 0x00, 0x00, 0x80, 0x80] ∧
    frameBytes 0x10 [0xFF, 0xFF, 0xFF] = [0x81, 0x05, 0x10, 0xFD, 0xFF, 0xFF, 0xFF] := by decide

/-- Vectors P1, P3, P6, P7, P9, P14 and P15. -/
theorem test_parse_frame :
    parseFrame [0x81, 0x09, 0x04, 0x4A, 0x02, 0x01, 0x83, 0x60, 0x01, 0x41, 0x22]
      = (.ok 0x04 [0x02, 0x01, 0x83, 0x60, 0x01, 0x41, 0x22], 11) ∧
    parseFrame [0x81, 0x02, 0x04, 0x01] = (.fail .checksumMismatch, 4) ∧
    parseFrame [0x55] = (.fail .shortRead, 1) ∧ parseFrame [0x55, 0xFF] = (.fail .badMagic, 2) ∧
    parseFrame [0x81, 0x00] = (.fail .badLength, 2) ∧ parseFrame [0x81, 0x09, 0x04] = (.fail .shortRead, 3) ∧
    parseFrame [0x81, 0x05, 0x04, 0x06, 0x01, 0x02, 0x03, 0xAA, 0xBB] = (.ok 0x04 [0x01, 0x02, 0x03], 7) := by decide

/-- Vectors T8 and T10: arrivals before the body read count; an error then is IoError with the header consumed. -/
theorem test_decode_op :
    decodeOp false false [0x81, 0x03] [0x07, 0x2A, 0x2A] = (.ok 0x07 [0x2A], 5) ∧
    decodeOp false true [0x81, 0x03, 0x07, 0x2A, 0x2A] [] = (.fail .ioError, 2) := by decide

/-- Vectors E14, E15 and E17. -/
theorem test_encode_op :
    encodeOp 0x04 [0x02, 0x01, 0x83, 0x60, 0x01, 0x41, 0x22] 6 = (.ioError, [0x81, 0x09, 0x04, 0x4A, 0x02, 0x01]) ∧
    encodeOp 0x04 [0x02] 0 = (.ioError, []) ∧ encodeOp 0x04 (List.replicate 253 0) 9 = (.badLength, []) := by
  refine ⟨by decide, by decide, ?_⟩
  rw [encodeOp, if_pos (by rw [List.length_replicate]; decide)]

/-! ### Instructions, one step each -/

/-- R163. -/
theorem test_nop : (after (exec .nop State.reset)) = State.reset := by decide

/-- R23, R110: the status word is then 0x01. -/
theorem test_encode_starts :
    (after (exec .encode State.reset)).phase = .txBuild ∧ statusWord (after (exec .encode State.reset)) = 0x01 := by decide

/-- R23, R130. -/
theorem test_decode_starts : (after (exec .decode State.reset)).phase = .rxWait := by decide

/-- A second command while BUSY is ignored (R23). -/
theorem test_command_ignored : exec .decode (at_ .txSend) = .next (at_ .txSend) := rfl

/-- R93. -/
theorem test_reserved3 : exec .reserved3 State.reset = .next State.reset := rfl

/-- R92, R23. -/
theorem test_wr_cmd : (after (exec (.wrCmd 2) State.reset)).phase = .rxWait := by decide

/-- R160, R39. -/
theorem test_wr_settle :
    (after (exec (.wrSettleMs 0xFFFF) State.reset)).settleMs = 0xFFFF ∧
    (after (exec (.wrSettleMs 0) (at_ .rxWait))).settleMs = 300 := by decide

/-- R164: 253 to 255 are accepted by DLEN. -/
theorem test_wr_type_dlen :
    (after (exec (.wrType 0xFF) State.reset)).typ = 0xFF ∧ (after (exec (.wrDlen 255) State.reset)).dlen = 255 := by decide

/-- R164, R29: the window's last byte is FB[255]. -/
theorem test_wrd_rdd :
    (after (exec (.wrd 251 0x7F) State.reset)).fb = [(255, 0x7F)] ∧
    (after (exec (.rdd 0) { State.reset with fb := [(4, 0x83)] })).rdata = 0x0083 := by decide

/-- Writes keep the canonical form, and writing again replaces. -/
theorem test_window_canonical :
    (after (exec (.wrd 0 1) { State.reset with fb := [(4, 9), (6, 2)] })).fb = [(4, 1), (6, 2)] ∧
    (after (exec (.wrd 1 3) { State.reset with fb := [(4, 9), (6, 2)] })).fb = [(4, 9), (5, 3), (6, 2)] := by decide

/-- R24, R161: idle and silent 0x00; a byte queued 0x04; an error and DONE 0x0A. -/
theorem test_rd_status :
    (after (exec .rdStatus State.reset)).rdata = 0x00 ∧
    (after (exec .rdStatus { State.reset with rxq := [0x55] })).rdata = 0x04 ∧
    (after (exec .rdStatus { State.reset with rxErr := true, done := true })).rdata = 0x0A := by decide

/-- R162, R165. -/
theorem test_reads :
    (after (exec .rdResult { State.reset with result := 5 })).rdata = 5 ∧
    (after (exec .rdType { State.reset with typ := 0xC9 })).rdata = 0xC9 ∧
    (after (exec .rdDlen { State.reset with dlen := 252 })).rdata = 252 ∧
    (after (exec .rdSettleMs (at_ .txBuild))).rdata = 300 := by decide

/-- R80: a frame arrives behind what is queued. -/
theorem test_frame :
    (after (exec (.frame 0x07 [0x2A]) { State.reset with rxq := [0x00] })).rxq
      = [0x00, 0x81, 0x03, 0x07, 0x2A, 0x2A] := by decide

/-- R180. -/
theorem test_frame_set :
    (after (exec (.frameSet 0x60 0x01 0x41 0x22) State.reset)).fb
      = [(4, 0x02), (5, 0x01), (6, 0x83), (7, 0x60), (8, 0x01), (9, 0x41), (10, 0x22)] ∧
    (after (exec (.frameSet 0x60 0x01 0x41 0x22) State.reset)).phase = .txBuild := by decide

/-- The word of a table row, placed, is run by the very next step (log entry 3). -/
theorem test_fetch_word :
    (after (step (State.reset.withFetchWord 8 2))).phase = .rxWait ∧
    completes (step (State.reset.withFetchWord 8 0)) = true ∧
    reason (step (State.reset.withFetchWord 8 6)) = some (.badAccess .noSuchCommand) := by decide

/-- R54, R90: bytes that make no frame arrive all the same. -/
theorem test_wire_bytes_arrive :
    (after (step { State.reset with agenda := [.host [0x05, 0x55, 0xFF]] })).rxq = [0x55, 0xFF] := by decide

/-- With a finite depth an arrival that does not fit would be refused (R64; log entry 14). -/
theorem test_depth : rxqFits (some 4) 3 1 = true ∧ rxqFits (some 4) 3 2 = false ∧ rxqFits none 3 2 = true := by decide

/-! ### The codec, one step each -/

/-- Vectors T3, T4 and T5 at the wait. -/
theorem test_wait :
    (after (codecStep { at_ .rxWait with rxq := [0x81], rxErr := true })).result = 4 ∧
    (after (codecStep { at_ .rxWait with rxq := [0x81] })).tmr = 300 ∧
    (after (codecStep (at_ .rxWait))).phase = .rxWait := by decide

/-- Vectors P5, P7, P9 and P12 at the header. -/
theorem test_header :
    (after (codecStep (hdr [0x81]))).result = 2 ∧ (after (codecStep (hdr [0x55, 0xFF]))).result = 1 ∧
    (after (codecStep (hdr [0x81, 0x00]))).result = 5 ∧ (after (codecStep (hdr [0x81, 0x02]))).phase = .rxBody := by decide

/-- Vectors P13 and P4 at the body. -/
theorem test_body :
    (after (codecStep (body 0x02 [0x04]))).result = 2 ∧
    (after (codecStep (body 0x03 [0x07, 0x2A, 0x2A]))).phase = .rxCheck := by decide

/-- Vectors P3 and P4 at the check. -/
theorem test_check :
    (after (codecStep (check 0x2B))).result = 3 ∧ (after (codecStep (check 0x2A))).result = 0 ∧
    (after (codecStep (check 0x2A))).typ = 7 ∧ (after (codecStep (check 0x2A))).dlen = 1 := by decide

/-- Vectors E2, E17 and E15 in the codec. -/
theorem test_send :
    (after (codecStep { at_ .txBuild with typ := 4 })).fb = [(0, 0x81), (1, 2), (2, 4), (3, 0)] ∧
    (after (codecStep { at_ .txBuild with dlen := 253 })).result = 5 ∧
    (after (codecStep { send with txNext := .all })).txw = [0x81, 0x02, 0x04, 0x00] ∧
    (after (codecStep { send with txNext := .exactly 0 })).result = 4 := by decide

/-- The invariant holds in a state of each phase. -/
theorem test_inv_early : Inv State.reset ∧ Inv (at_ .txBuild) ∧ Inv (at_ .rxWait) ∧ Inv (at_ .rxSettle) := by
  refine ⟨?_, ?_, ?_, ?_⟩ <;>
    exact inv_before ⟨by decide, by decide⟩ (Nat.le_of_ble_eq_true rfl) (by decide) (by decide)

theorem test_inv_header : Inv (hdr []) := by
  constructor <;> simp [hdr, at_, FlagsAgree, ResultIsCode, HeaderRead, BodyRead, FrameBuilt, TimerDone, State.reset, Memory.wf]

theorem test_inv_body : Inv (body 254 []) ∧ Inv (body 2 [0x04]) := by
  refine ⟨⟨⟨by decide, by decide⟩, Nat.le_of_ble_eq_true rfl, by decide, fun _ => ⟨?_, by decide, by decide⟩, ?_, ?_,
    fun _ => rfl⟩, ⟨⟨by decide, by decide⟩, Nat.le_of_ble_eq_true rfl, by decide, fun _ => ⟨?_, by decide, by decide⟩, ?_, ?_,
    fun _ => rfl⟩⟩
  all_goals first | (unfold Specified; decide) | (intro h; cases h)

theorem test_inv_check : Inv (check 0x2A) ∧ Inv (check 0x2B) := by
  refine ⟨⟨⟨by decide, by decide⟩, Nat.le_of_ble_eq_true rfl, by decide, fun _ => ⟨?_, by decide, by decide⟩, fun _ => ?_, ?_,
    fun _ => rfl⟩, ⟨⟨by decide, by decide⟩, Nat.le_of_ble_eq_true rfl, by decide, fun _ => ⟨?_, by decide, by decide⟩, fun _ => ?_, ?_,
    fun _ => rfl⟩⟩
  all_goals first | (unfold Specified; decide) | (intro h; cases h)

theorem test_inv_send : Inv send := by
  refine ⟨⟨by decide, by decide⟩, Nat.le_of_ble_eq_true rfl, by decide, ?_, ?_, fun _ => ⟨by decide, by decide⟩, ?_⟩
  · intro h; rcases h with h | h <;> cases h
  · intro h; cases h
  · intro h; rcases h with h | h | h <;> cases h

/-! ### States that meet the hypotheses of the obligations

Each theorem names the obligation it is a witness of; where the obligation has clauses, a state at the edge of each. -/

theorem test_witness_step :
    ({ State.reset with agenda := [.host [0x00, 0x01]] } : State).agenda = .host [0x00, 0x01] :: [] ∧
    decodeLine [0x00, 0x01] = .ok .encode ∧ decodeLine [0x04, 0xFC] = .error .noSuchWindowByte := by decide

/-- StepRefusesWhatIsNoAccess: an access, and bytes on the wire. -/
theorem test_witness_step_refuses :
    reason (step { State.reset with agenda := [.host [0x04, 0xFC]] }) = some (.badAccess .noSuchWindowByte) ∧
    decodeLine [0x05, 0x55] = .error .shortLine ∧
    completes (step { State.reset with agenda := [.host [0x05, 0x55]] }) = true := by decide

theorem test_witness_encode_of_decode : decodeLine [0x03, 0xFB, 0x7F] = .ok (.wrd 251 0x7F) := by decide

theorem test_witness_reset_input :
    ({ at_ .txSend with agenda := [.reset] } : State).agenda = .reset :: [] := by decide

theorem test_witness_idle : State.reset.agenda = [] ∧ State.reset.phase = .idle := by decide

/-- CommandPortStartsOrIgnores, RegisterWritesUnlessBusy, EncodeRealisesTheOperation, SetFrameLoadsAndStartsEncode, and the other
side of the same clauses. -/
theorem test_witness_busy : State.reset.busy = false ∧ (at_ .rxWait).busy = true := by decide

/-- WindowWriteChangesOneByte, ReadsWhenIdleReturnTheRegister, ReadsWhileBusyAreUnspecified at both
ends of the window, and WindowIndexBeyondIsRefused just after it. -/
theorem test_witness_window :
    State.reset.busy = false ∧ (at_ .rxWait).busy = true ∧ 0 ≤ 251 ∧ 251 ≤ 251 ∧ 252 ≤ 252 := by decide

/-- FrameArrivesOnTheQueue, FrameLayout and FramesParseBackAndDelimitThemselves at 0, 252 and 253 data bytes. -/
theorem test_witness_data_length :
    ([] : List Byte).length ≤ 252 ∧ (List.replicate 252 (0 : Byte)).length ≤ 252 ∧
    252 < (List.replicate 253 (0 : Byte)).length := by
  simp only [List.length_replicate]; decide

theorem test_witness_set_frame :
    ({ State.reset with txNext := .all } : State).busy = false ∧
    ({ State.reset with txNext := .all } : State).txNext = .all := by decide

/-- RoundTripAndSingleBitErrors: the checksum byte's bit 0 and the last data byte's bit 7. -/
theorem test_witness_single_bit :
    ([0x2A] : List Byte).length ≤ 252 ∧ 3 ≤ 3 ∧ 0 < 8 ∧ 3 ≤ 4 ∧ 4 < ([0x2A] : List Byte).length + 4 ∧ 7 < 8 := by decide

/-- ParseFrameTestsInOrder: each clause at the edges of LEN, and a whole frame with a right and a wrong checksum. -/
theorem test_witness_parse :
    (0x55 : Byte) ≠ 0x81 ∧ ((0 : Byte) = 0 ∨ (0 : Byte) = 1 ∨ (0 : Byte) = 255) ∧
    ((255 : Byte) = 0 ∨ (255 : Byte) = 1 ∨ (255 : Byte) = 255) ∧
    (2 ≤ (2 : Byte).toNat ∧ (2 : Byte).toNat ≤ 254 ∧ ([4] : List Byte).length < (2 : Byte).toNat) ∧
    (2 ≤ (254 : Byte).toNat ∧ (254 : Byte).toNat ≤ 254 ∧ ([] : List Byte).length < (254 : Byte).toNat) ∧
    (([0x2A] : List Byte).length + 2 = (3 : Byte).toNat ∧ sum8 [0x2A] = 0x2A ∧ sum8 [0x2A] ≠ 0x2B) := by decide

theorem test_witness_decode_is_parse : 2 ≤ ([0x81, 0x02] : List Byte).length := by decide

/-- DecodeConsumption: one input for each outcome (vectors P2, P7, P9, P3, T9, T10, P5, P12). -/
theorem test_witness_consumption :
    decodeOp false false [0x81, 0x02, 0x04, 0x00] [] = (.ok 0x04 [], 4) ∧
    decodeOp false false [0x55, 0xFF] [] = (.fail .badMagic, 2) ∧
    decodeOp false false [0x81, 0x00] [] = (.fail .badLength, 2) ∧
    decodeOp false false [0x81, 0x02, 0x04, 0x01] [] = (.fail .checksumMismatch, 4) ∧
    decodeOp true false [0x81, 0x02] [] = (.fail .ioError, 0) ∧
    decodeOp false true [0x81, 0x02] [] = (.fail .ioError, 2) ∧
    decodeOp false false [0x81] [0x02] = (.fail .shortRead, 1) ∧
    decodeOp false false [0x81, 0x02] [] = (.fail .shortRead, 2) := by decide

/-- WaitEndsOnErrorOrByte's three clauses, and WaitCanLastForEver. -/
theorem test_witness_wait :
    ((at_ .rxWait).phase = .rxWait ∧ (at_ .rxWait).rxErr = false ∧ (at_ .rxWait).rxq = [] ∧ (at_ .rxWait).agenda = []) ∧
    ({ at_ .rxWait with rxq := [0x00] } : State).rxq ≠ [] ∧
    ({ at_ .rxWait with rxErr := true } : State).rxErr = true := by decide

/-- TickCountsOnlyInSettle: TMR 1, TMR 0, and another phase. -/
theorem test_witness_tick :
    ({ at_ .rxSettle with tmr := 1, agenda := [.tick] } : State).tmr ≠ 0 ∧
    ({ at_ .rxSettle with agenda := [.tick] } : State).tmr = 0 ∧ (at_ .rxHdr).phase ≠ .rxSettle := by decide

/-- SettleDelayIsNeverCutShort: the ways on, by a tick, by the codec and by reset, and the codec's turn too early. -/
theorem test_witness_settle :
    Inv (at_ .rxSettle) ∧ (at_ .rxSettle).phase = .rxSettle ∧ (after (step (at_ .rxSettle))).phase = .rxHdr ∧
    (after (step { at_ .rxSettle with tmr := 1 })).tmr = 0 ∧
    (after (step { at_ .rxSettle with tmr := 1, agenda := [.reset] })).phase = .idle ∧
    (after (step { at_ .rxSettle with tmr := 1, agenda := [.codec] })).tmr = 1 :=
  ⟨test_inv_early.2.2.2, by decide, by decide, by decide, by decide, by decide⟩

/-- SettleDelayEndsAfterItsTicks: TMR 0 and above. -/
theorem test_witness_settle_ends :
    (at_ .rxSettle).agenda = [] ∧ (at_ .rxSettle).phase = .rxSettle ∧
    1 ≤ ({ at_ .rxSettle with tmr := 0xFFFF } : State).tmr.toNat := by decide

/-- HeaderStepTestsInOrder: each clause, LEN at 1, 2, 254 and 255. -/
theorem test_witness_header :
    ((hdr []).phase = .rxHdr ∧ (hdr []).rxErr = false ∧ (hdr [0x81]).rxq.length < 2) ∧
    (2 ≤ (hdr [0x80, 0x02]).rxq.length ∧ (hdr [0x80, 0x02]).rxq.getD 0 0 ≠ 0x81) ∧
    ((hdr [0x81, 0x01]).rxq.getD 1 0).toNat < 2 ∧ 254 < ((hdr [0x81, 0xFF]).rxq.getD 1 0).toNat ∧
    2 ≤ ((hdr [0x81, 0x02]).rxq.getD 1 0).toNat ∧ ((hdr [0x81, 0xFE]).rxq.getD 1 0).toNat ≤ 254 := by decide

/-- BodyStepTakesTheDeclaredLength: one byte short, and just enough. -/
theorem test_witness_body :
    Inv (body 2 [0x04]) ∧ (body 2 [0x04]).phase = .rxBody ∧ (body 2 [0x04]).rxErr = false ∧
    (body 2 [0x04]).rxq.length < (fbByte (body 2 [0x04]) 1).toNat ∧
    (fbByte (body 2 [0x04, 0x00]) 1).toNat ≤ (body 2 [0x04, 0x00]).rxq.length :=
  ⟨test_inv_body.2, by decide, by decide, by decide, by decide⟩

/-- After an operation only what it left is specified (R38): the received data, or the window. -/
theorem test_unspecified_after :
    (after (codecStep (check 0x2A))).fb = [(4, 0x2A)] ∧ (after (codecStep { send with txNext := .all })).fb = [] := by decide

/-- CheckStepDeliversOrRejects: a wrong and a right checksum. -/
theorem test_witness_check :
    Inv (check 0x2B) ∧ Inv (check 0x2A) ∧ (check 0x2A).phase = .rxCheck ∧
    sum8 (fbSlice (check 0x2B) 4 ((fbByte (check 0x2B) 1).toNat - 2)) ≠ fbByte (check 0x2B) 3 ∧
    sum8 (fbSlice (check 0x2A) 4 ((fbByte (check 0x2A) 1).toNat - 2)) = fbByte (check 0x2A) 3 :=
  ⟨test_inv_check.2, test_inv_check.1, by decide, by decide, by decide⟩

theorem test_witness_failed :
    (hdr [0x55, 0xFF]).phase ≠ .idle ∧ (hdr [0x55, 0xFF]).phase ≠ .txBuild ∧ (hdr [0x55, 0xFF]).phase ≠ .txSend ∧
    completes (codecStep (hdr [0x55, 0xFF])) = true ∧ (after (codecStep (hdr [0x55, 0xFF]))).phase = .idle ∧
    (after (codecStep (hdr [0x55, 0xFF]))).result ≠ 0 := by decide

theorem test_witness_transport_error :
    ({ at_ .rxWait with rxErr := true } : State).phase = .rxWait ∧ ({ hdr [] with rxErr := true } : State).phase = .rxHdr ∧
    ({ body 2 [] with rxErr := true } : State).phase = .rxBody ∧ ({ body 2 [] with rxErr := true } : State).rxErr = true ∧
    completes (codecStep (at_ .rxSettle)) = true ∧ completes (codecStep (check 0x2A)) = true := by decide

/-- BuildStepWritesTheHeader and SendStepAppendsAnAcceptedPart: DLEN 253 and 252, and the transport's choice fixed. -/
theorem test_witness_build_send :
    (at_ .txBuild).phase = .txBuild ∧ 252 < ({ at_ .txBuild with dlen := 253 } : State).dlen.toNat ∧
    ({ at_ .txBuild with dlen := 252 } : State).dlen.toNat ≤ 252 ∧ send.phase = .txSend ∧ send.dlen.toNat ≤ 252 ∧
    ({ send with txNext := .exactly 3 } : State).txNext = .exactly 3 ∧ ({ send with txNext := .all } : State).txNext = .all := by
  decide

theorem test_witness_encode_receive_side :
    completes (codecStep (at_ .txBuild)) = true ∧ completes (codecStep send) = true := by decide

/-- DecodeRealisesTheOperation, with an outcome Ok in which bytes arrive between the reads. -/
theorem test_witness_decode_realises :
    (hdr [0x81, 0x03]).phase = .rxHdr ∧
    (decodeOp (hdr [0x81, 0x03]).rxErr false (hdr [0x81, 0x03]).rxq [0x07, 0x2A, 0x2A]).1 = .ok 0x07 [0x2A] := by decide

/-- DecodeCommandRunsToItsResult, and LoopBackRoundTrip with DLEN 252. -/
theorem test_witness_commands :
    (({ State.reset with rxq := [0x81] } : State).busy = false ∧ ({ State.reset with rxq := [0x81] } : State).rxErr = false ∧
      ({ State.reset with rxq := [0x81] } : State).rxq ≠ []) ∧
    (({ State.reset with txNext := .all, dlen := 252 } : State).dlen.toNat ≤ 252 ∧ State.reset.rxq = [] ∧
      State.reset.rxErr = false ∧ State.reset.busy = false) := by decide

/-- StepKeepsTheInvariant, NoStepFaults, ReceiveQueueIsFifo, OnlyFramesGoOnTheWire, SettleChangesOnlyByItsWrite,
ErrorLevelIsTheTransports: states of the invariant that step. -/
theorem test_witness_invariant_steps :
    (Inv send ∧ completes (step send) = true) ∧ (Inv (body 2 [0x04]) ∧ completes (step (body 2 [0x04])) = true) ∧
    (Inv (check 0x2A) ∧ completes (step (check 0x2A)) = true) :=
  ⟨⟨test_inv_send, by decide⟩, ⟨test_inv_body.2, by decide⟩, ⟨test_inv_check.1, by decide⟩⟩

/-- OperationsEndWithDone: the send ends the operation. -/
theorem test_witness_operation_ends :
    Inv send ∧ send.busy = true ∧ completes (step send) = true ∧ (after (step send)).busy = false :=
  ⟨test_inv_send, by decide, by decide, by decide⟩

/-- FlagsChangeOnlyByCommandAndEnd: an access that is no command, and an environment event. -/
theorem test_witness_flags :
    completes (exec (.wrType 4) State.reset) = true ∧ Instr.wrType 4 ≠ .encode ∧
    completes (step { State.reset with agenda := [.rxErr true] }) = true ∧
    (at_ .txBuild).phase ≠ .idle ∧ (after (codecStep (at_ .txBuild))).phase ≠ .idle ∧
    completes (codecStep (at_ .txBuild)) = true ∧ completes (codecStep State.reset) = true := by decide

/-- EnvironmentTurnsChangeOneField: each of the three turns at the head. -/
theorem test_witness_environment :
    ({ State.reset with agenda := [.rx [0x81]] } : State).agenda = .rx [0x81] :: [] ∧
    ({ State.reset with agenda := [.rxErr true] } : State).agenda = .rxErr true :: [] ∧
    ({ State.reset with agenda := [.txAcc .all] } : State).agenda = .txAcc .all :: [] := by decide

/-- ReceiveQueueIsFifo: its ways to change the queue. -/
theorem test_witness_queue :
    (after (step { State.reset with agenda := [.rx [0x81]] })).rxq = [0x81] ∧
    (after (step { State.reset with agenda := [.host [0x05, 0x00]] })).rxq = [0x00] ∧
    (after (step (hdr [0x81, 0x02, 0x04]))).rxq = [0x04] ∧ (after (step (body 2 [0x04, 0x00, 0x81]))).rxq = [0x81] := by
  decide

/-- SettleChangesOnlyByItsWrite and ErrorLevelIsTheTransports: the write and the level themselves. -/
theorem test_witness_changes :
    (after (step { State.reset with agenda := [.host [0x01, 0x05, 0x01, 0x00]] })).settleMs = 1 ∧
    (after (step { State.reset with agenda := [.rxErr true] })).rxErr = true := by decide

end Sys2Proof.Tests
end

section
/-! PROOFS of the scope family: turns and lines (O1, O2, O32), how an operation ends (O52), and the two operations of
level 2 on the machine (O44, O45, O46). -/

namespace Sys2Proof.Machine

/-! ### The host's turn -/

theorem hostTurn_ok {line : List Byte} {i : Instr} (s : State) (h : decodeLine line = .ok i) :
    hostTurn line s = exec i s := by
  simp only [hostTurn, h]

theorem hostTurn_error {line : List Byte} {why : Reject} (s : State) (h : decodeLine line = .error why) :
    hostTurn line s = undecodedLine why line s := by
  simp only [hostTurn, h]

/-- Settles O1: `step` takes the turn off the agenda, and a decoded line is one call of `exec`. -/
theorem stepRunsTheDecodedInstruction : Obligations.StepRunsTheDecodedInstruction := by
  intro s line rest i ha hd
  exact (step_cons ha).trans (hostTurn_ok _ hd)

/-- Settles O2: an undecoded line arrives on the wire's select, and is refused by its reason on any other. -/
theorem stepRefusesWhatIsNoAccess : Obligations.StepRefusesWhatIsNoAccess := by
  intro s line rest why ha hd
  have hstep : step s = undecodedLine why line (withAgenda rest s) :=
    (step_cons ha).trans (hostTurn_error _ hd)
  constructor
  · intro hsel
    exact hstep.trans (undecodedLine_other hsel)
  · rintro bs rfl
    exact hstep.trans (undecodedLine_wire why bs _)

/-- Settles O32: each of the three turns is one update of the field it names. -/
theorem environmentTurnsChangeOneField : Obligations.EnvironmentTurnsChangeOneField := by
  intro s rest
  refine ⟨fun bs ha => ?_, fun e ha => ?_, fun k ha => ?_⟩
  · exact (step_cons ha).trans (takeTurn_rx bs _)
  · exact step_cons ha
  · exact step_cons ha

/-! ### How an operation ends -/

/-- No access of the host ends an operation (R23, R39). -/
theorem Executed.keeps_busy {i : Instr} {s t : State} (h : Executed i s t) (hb : s.busy = true) : t.busy = true := by
  cases h with
  | started | loaded => rfl
  | unchanged | settle | type | dlen | window | read | arrived => exact hb

/-- A codec step that lowers BUSY ends the operation with DONE 1, PHASE IDLE and a result code (R112, R138, R199). -/
theorem Sequenced.ends_done {s t : State} (h : Sequenced s t) (hs : s.busy = true) (ht : t.busy = false) :
    t.done = true ∧ t.phase = .idle ∧ t.result.toNat ≤ 5 := by
  cases h with
  | failed k | sent _ k => exact ⟨rfl, rfl, code_le k⟩
  | delivered => exact ⟨rfl, rfl, code_le .ok⟩
  | tooLong => exact ⟨rfl, rfl, code_le .badLength⟩
  | unchanged | waited | settled | header | body | built => exact absurd (hs.symm.trans ht) (by decide)

/-- Settles O52: of all turns only reset and the codec's lower BUSY, and the codec does so only by ending the
operation. -/
theorem operationsEndWithDone : Obligations.OperationsEndWithDone := by
  intro s t _ hstep hs ht
  cases step_stepped hstep with
  | reset rest ha => exact .inl (by rw [ha]; rfl)
  | codec rest _ _ hseq => exact .inr (hseq.ends_done hs ht)
  | access _ _ _ _ _ _ hex => exact absurd ((hex.keeps_busy hs).symm.trans ht) (by decide)
  | wire | arrived | level | counted | uncounted | accept => exact absurd (hs.symm.trans ht) (by decide)

/-! ### One turn of a run -/

theorem run_codec {k : Nat} {rest : List Turn} {s t : State} (h : codecStep s = .next t) :
    Sys2Proof.core.run (k + 1) (withAgenda (.codec :: rest) s) = Sys2Proof.core.run k (withAgenda rest t) :=
  run_cons h

theorem run_codec_idle {k : Nat} {rest : List Turn} {s : State} (h : s.phase = .idle) :
    Sys2Proof.core.run (k + 1) (withAgenda (.codec :: rest) s) = Sys2Proof.core.run k (withAgenda rest s) :=
  run_cons (takeTurn_codec_idle h)

theorem run_rx {k : Nat} {bs : List Byte} {rest : List Turn} {s : State} :
    Sys2Proof.core.run (k + 1) (withAgenda (.rx bs :: rest) s)
      = Sys2Proof.core.run k (withAgenda rest { s with rxq := s.rxq ++ bs }) :=
  run_cons (takeTurn_rx bs s)

theorem run_rxErr {k : Nat} {e : Bool} {rest : List Turn} {s : State} :
    Sys2Proof.core.run (k + 1) (withAgenda (.rxErr e :: rest) s)
      = Sys2Proof.core.run k (withAgenda rest { s with rxErr := e }) :=
  run_cons rfl

theorem run_arrivals {k : Nat} {bs : List Byte} {e : Bool} {rest : List Turn} {s : State} :
    Sys2Proof.core.run (k + 2) (withAgenda (.rx bs :: .rxErr e :: rest) s)
      = Sys2Proof.core.run k (withAgenda rest { s with rxq := s.rxq ++ bs, rxErr := e }) :=
  run_rx.trans run_rxErr

/-! ### ENCODE -/

theorem takeTurn_encode {s : State} (h : s.busy = false) :
    takeTurn (.host (encodeLine .encode)) s = .next { s with busy := true, done := false, phase := .txBuild } :=
  congrArg _ (takeCommand_encode h)

theorem encodeOp_long (t : Byte) {d : List Byte} (k : Nat) (h : Config.maxData < d.length) :
    encodeOp t d k = (.badLength, []) :=
  if_pos h

theorem encodeOp_short (t : Byte) {d : List Byte} (k : Nat) (h : d.length ≤ Config.maxData) :
    encodeOp t d k =
      (if k < Config.frameOverhead + d.length then .ioError else .ok, (frameBytes t d).take k) := by
  rw [← frameBytes_length t]; exact if_neg (Nat.not_lt.mpr h)

/-- The state TX_BUILD leaves when DLEN is not too long (R112). -/
def afterTxBuild (s : State) : State :=
  { buildHeader { s with sum := sum8 (fbSlice s Config.frameOverhead s.dlen.toNat) } with phase := .txSend }

/-- TX_BUILD leaves the data window alone. -/
theorem fbByte_afterTxBuild (s : State) {a : Nat} (h : 4 ≤ a) : fbByte (afterTxBuild s) a = fbByte s a := by
  show fbByte (buildHeader { s with sum := _ }) a = _
  simp only [buildHeader, fbByte_fbSet]
  rw [if_neg (by omega), if_neg (by omega), if_neg (by omega), if_neg (by omega)]
  rfl

/-- What TX_BUILD leaves in FB is the frame of the operands (R88, R112). -/
theorem fbSlice_afterTxBuild (s : State) :
    fbSlice (afterTxBuild s) 0 (Config.frameOverhead + s.dlen.toNat)
      = frameBytes s.typ (fbSlice s Config.frameOverhead s.dlen.toNat) := by
  have hdata : fbSlice (afterTxBuild s) Config.frameOverhead s.dlen.toNat
      = fbSlice s Config.frameOverhead s.dlen.toNat :=
    fbSlice_eq fun i _ => fbByte_afterTxBuild s (Nat.le_add_right 4 i)
  have hheader : ∀ a, fbByte (afterTxBuild s) a
      = fbByte (buildHeader { s with sum := sum8 (fbSlice s Config.frameOverhead s.dlen.toNat) }) a := fun _ => rfl
  rw [fbSlice_image, hdata, frameBytes, fbSlice_length]
  simp [hheader, buildHeader]

/-- How many bytes the transport accepts of the frame TX_BUILD leaves (R57). -/
def sentCount (s : State) : Nat :=
  txCount (Config.frameOverhead + s.dlen.toNat) (afterTxBuild s)

theorem sentCount_all {s : State} (h : s.txNext = .all) : sentCount s = Config.frameOverhead + s.dlen.toNat := by
  have : (afterTxBuild s).txNext = .all := h
  simp only [sentCount, txCount, this]

/-- TX_SEND after TX_BUILD offers the frame of the operands and ends as `encodeOp` says (R110, R112). -/
theorem codecStep_afterTxBuild {s : State} (h : s.dlen.toNat ≤ Config.maxData) :
    codecStep (afterTxBuild s) = .next
      (endEncode (encodeOp s.typ (fbSlice s Config.frameOverhead s.dlen.toNat) (sentCount s)).1
        (txAppend (frameBytes s.typ (fbSlice s Config.frameOverhead s.dlen.toNat)) (sentCount s)
          (afterTxBuild s))) := by
  rw [encodeOp_short _ _ (by rwa [fbSlice_length]), fbSlice_length, ← fbSlice_afterTxBuild]
  exact stepTxSend_eq (s := afterTxBuild s) h

/-- A run of ENCODE whose two codec steps go by `u` to `t` (R112). -/
theorem run_encode {s u t : State} (h : s.busy = false)
    (hbuild : codecStep { s with busy := true, done := false, phase := .txBuild } = .next u)
    (hsend : codecStep u = .next t) :
    Sys2Proof.core.run 3 (withAgenda [.host (encodeLine .encode), .codec, .codec] s) = .next (withAgenda [] t) := by
  rw [run_cons (takeTurn_encode h), run_codec hbuild, run_codec hsend, run_zero]

/-- Settles O44: DLEN above 252 ends at TX_BUILD; otherwise TX_BUILD puts the frame of the operands into FB and TX_SEND
offers it whole, the accepted count being the transport's. -/
theorem encodeRealisesTheOperation : Obligations.EncodeRealisesTheOperation := by
  intro s hb
  have hlen : (fbSlice s 4 s.dlen.toNat).length = s.dlen.toNat := fbSlice_length ..
  rcases Nat.lt_or_ge Config.maxData s.dlen.toNat with hd | hd
  · refine ⟨4 + s.dlen.toNat, _, run_encode hb (stepTxBuild_long hd) rfl, le_rfl, fun _ => rfl, ?_⟩
    rw [encodeOp_long _ _ (hlen.symm ▸ hd)]
    exact ⟨rfl, (List.append_nil _).symm, rfl, rfl, rfl, rfl, rfl, rfl, rfl, rfl, fun _ _ _ => rfl⟩
  · refine ⟨sentCount { s with busy := true, done := false, phase := .txBuild }, _,
      run_encode hb (stepTxBuild_short hd) (codecStep_afterTxBuild hd), txCount_le _ _, sentCount_all, rfl, ?_,
      rfl, rfl, rfl, rfl, rfl, rfl, rfl, rfl, fun a h4 h256 => ?_⟩
    · exact congrArg (s.txw ++ Prod.snd ·) (encodeOp_short s.typ _ (hlen.symm ▸ hd)).symm
    · exact (fbByte_endEncode _ ⟨h4, h256⟩).trans (fbByte_afterTxBuild _ h4)

/-! ### DECODE as the operation of level 2 -/

/-- `t` is what a DECODE of the queue `q` with outcome and consumption `o` leaves, SETTLE_MS and TXW being `settle` and
`txw` (R130, R138 to R141). -/
structure DecodedAs (settle : Word) (txw q : List Byte) (o : Parsed × Nat) (t : State) : Prop where
  result : t.result = o.1.kind.code
  rxq : t.rxq = q.drop o.2
  phase : t.phase = .idle
  busy : t.busy = false
  done : t.done = true
  settle : t.settleMs = settle
  txw : t.txw = txw
  payload : ∀ (ty : Byte) (d : List Byte), o.1 = .ok ty d →
    t.typ = ty ∧ t.dlen.toNat = d.length ∧ fbSlice t 4 d.length = d

theorem decodedAs_failDecode {q : List Byte} {n : Nat} {s : State} (k : Kind) (h : s.rxq = q.drop n) :
    DecodedAs s.settleMs s.txw q (.fail k, n) (failDecode k s) :=
  ⟨rfl, h, rfl, rfl, rfl, rfl, rfl, fun _ _ e => Parsed.noConfusion e⟩

theorem decodedAs_deliver {q d : List Byte} {n : Nat} {s : State} (ty : Byte) (h : s.rxq = q.drop n)
    (hlen : d.length ≤ Config.maxData) (hd : fbSlice s 4 d.length = d) (hs : Specified s 4 d.length) :
    DecodedAs s.settleMs s.txw q (.ok ty d, n) (deliver ty d.length s) := by
  refine ⟨rfl, h, rfl, rfl, rfl, rfl, rfl, ?_⟩
  rintro _ _ ⟨⟩
  have hdata : fbSlice (deliver ty d.length s) 4 d.length = fbSlice s 4 d.length :=
    fbSlice_eq fun i hi => fbByte_deliver (by omega) (hs i hi)
  refine ⟨rfl, ?_, hdata.trans hd⟩
  rw [deliver_dlen, BitVec.toNat_ofNat]
  exact Nat.mod_eq_of_lt (Nat.lt_of_le_of_lt hlen (by decide))

/-- Bytes that arrive after a failure stay queued behind what the failure left (R54, R139). -/
theorem DecodedAs.arrivals {settle : Word} {txw q : List Byte} {k : Kind} {n : Nat} {t : State} (a : List Byte)
    (e : Bool) (h : DecodedAs settle txw q (.fail k, n) t) (hn : n ≤ q.length) :
    DecodedAs settle txw (q ++ a) (.fail k, n) { t with rxq := t.rxq ++ a, rxErr := e } := by
  obtain ⟨hresult, hrxq, hphase, hbusy, hdone, hsettle, htxw, -⟩ := h
  refine ⟨hresult, ?_, hphase, hbusy, hdone, hsettle, htxw, fun _ _ e => Parsed.noConfusion e⟩
  rw [List.drop_append_of_le_length hn, ← hrxq]

theorem DecodedAs.withAgenda {settle : Word} {txw q : List Byte} {o : Parsed × Nat} {t : State} (l : List Turn)
    (h : DecodedAs settle txw q o t) : DecodedAs settle txw q o (withAgenda l t) := by
  obtain ⟨hresult, hrxq, hphase, hbusy, hdone, hsettle, htxw, hpayload⟩ := h
  exact ⟨hresult, hrxq, hphase, hbusy, hdone, hsettle, htxw, hpayload⟩

/-- A DECODE of what is queued behind the two header bytes, as one of the whole queue (R139). -/
theorem DecodedAs.behind_header {settle : Word} {txw r : List Byte} {o : Parsed × Nat} {t : State} (m l : Byte)
    (h : DecodedAs settle txw r o t) : DecodedAs settle txw (m :: l :: r) (o.1, 2 + o.2) t := by
  obtain ⟨hresult, hrxq, hphase, hbusy, hdone, hsettle, htxw, hpayload⟩ := h
  refine ⟨hresult, ?_, hphase, hbusy, hdone, hsettle, htxw, hpayload⟩
  rw [hrxq, Nat.add_comm]; rfl

/-! ### DECODE from its body read on -/

/-- DECODE from its body read on (steps 4 and 5 of R130): `r` is queued, `e` is rx_err, `l` is the length byte. -/
def bodyOp (e : Bool) (l : Nat) (r : List Byte) : Parsed × Nat :=
  if e then (.fail .ioError, 0)
  else if (r.take l).length < l then (.fail .shortRead, (r.take l).length)
  else if sum8 ((r.take l).drop 2) ≠ (r.take l).getD 1 0 then (.fail .checksumMismatch, l)
  else (.ok ((r.take l).getD 0 0) ((r.take l).drop 2), l)

theorem bodyOp_short {l : Nat} {r : List Byte} (h : r.length < l) :
    bodyOp false l r = (.fail .shortRead, r.length) := by
  have ht : r.take l = r := List.take_of_length_le (Nat.le_of_lt h)
  simp [bodyOp, ht, h]

theorem bodyOp_whole {l : Nat} {r : List Byte} {ty c : Byte} {d : List Byte} (hr : r.take l = ty :: c :: d)
    (hd : d.length + 2 = l) :
    bodyOp false l r = if sum8 d ≠ c then (.fail .checksumMismatch, l) else (.ok ty d, l) := by
  rw [bodyOp, if_neg Bool.false_ne_true, hr, if_neg (by simp only [List.length_cons]; omega)]; rfl

/-- A queue of at least two bytes holds a type tag and a checksum before the data. -/
theorem exists_take_body {l : Nat} {r : List Byte} (h2 : 2 ≤ l) (h : l ≤ r.length) :
    ∃ (ty c : Byte) (d : List Byte), r.take l = ty :: c :: d ∧ d.length + 2 = l := by
  have hlen : (r.take l).length = l := by rw [List.length_take]; omega
  match hr : r.take l with
  | [] | [_] => rw [hr] at hlen; simp at hlen; omega
  | ty :: c :: d => exact ⟨ty, c, d, rfl, by rw [hr] at hlen; simpa using hlen⟩

/-- The state once a body of `l` bytes was read whole (R136). -/
def afterRxBody (l : Nat) (s : State) : State :=
  { s with phase := .rxCheck, rxq := s.rxq.drop l, fb := Memory.insertAll s.fb 2 (s.rxq.take l) }

theorem stepRxBody_short {s : State} {l : Nat} (he : s.rxErr = false) (hl : (fbByte s 1).toNat = l) (hle : l ≤ 254)
    (hq : s.rxq.length < l) :
    stepRxBody s = .next (failDecode .shortRead { rxDrop l s with fb := Memory.insertAll s.fb 2 (s.rxq.take l) }) := by
  rw [stepRxBody_eq he hl hle, checkBody, if_pos (by simp only [List.length_take]; omega)]

theorem stepRxBody_whole {s : State} {l : Nat} (he : s.rxErr = false) (hl : (fbByte s 1).toNat = l) (hle : l ≤ 254)
    (hq : l ≤ s.rxq.length) : stepRxBody s = .next (afterRxBody l s) := by
  rw [stepRxBody_eq he hl hle, checkBody, if_neg (by simp only [List.length_take]; omega)]; rfl

/-- The body read stands in FB[2..), every byte of it specified (R136). -/
theorem specified_afterRxBody {s : State} {l : Nat} (hq : l ≤ s.rxq.length) : Specified (afterRxBody l s) 2 l := by
  intro i hi
  have hlen : (s.rxq.take l).length = l := by rw [List.length_take]; omega
  rw [afterRxBody, Memory.find_insertAll, if_pos (by omega), Nat.add_sub_cancel_left,
    List.getElem?_eq_getElem (by omega)]
  rfl

theorem fbSlice_afterRxBody {s : State} {l : Nat} (hq : l ≤ s.rxq.length) :
    fbSlice (afterRxBody l s) 2 l = s.rxq.take l := by
  have hslice := fbSlice_insertAll s 2 (s.rxq.take l)
  rwa [List.length_take, Nat.min_eq_left hq] at hslice

theorem fbByte_afterRxBody_length (l : Nat) (s : State) : fbByte (afterRxBody l s) 1 = fbByte s 1 :=
  (fbByte_insertAll (s := s) 2 1 (s.rxq.take l)).trans (if_neg (by omega))

/-- RX_CHECK on a body of a type tag, a checksum and data (R137, R138). -/
theorem stepRxCheck_body {s : State} {ty c : Byte} {d : List Byte} (hl : (fbByte s 1).toNat = d.length + 2)
    (hd : d.length ≤ Config.maxData) (hb : fbSlice s 2 (d.length + 2) = ty :: c :: d) :
    stepRxCheck s = .next (
      if sum8 d ≠ c then failDecode .checksumMismatch { s with sum := sum8 d }
      else deliver ty d.length { s with sum := sum8 d }) := by
  obtain ⟨hty, hc, hdata⟩ : fbByte s 2 = ty ∧ fbByte s 3 = c ∧ fbSlice s Config.frameOverhead d.length = d := by
    simpa only [fbSlice_succ, List.cons.injEq] using hb
  rw [stepRxCheck_eq (n := d.length) (by rw [hl]; rfl) hd, hdata, hty, hc, apply_ite Host.Outcome.next]

theorem codecStep_rxBody {s : State} (h : s.phase = .rxBody) : codecStep s = stepRxBody s := by
  simp only [codecStep, h]

/-- RX_CHECK after a whole body ends DECODE as `bodyOp` says (R137, R138). -/
theorem codecStep_afterRxBody {s : State} {l : Nat} (hl : (fbByte s 1).toNat = l) (h2 : 2 ≤ l) (h254 : l ≤ 254)
    (hq : l ≤ s.rxq.length) :
    ∃ t, codecStep (afterRxBody l s) = .next t ∧ DecodedAs s.settleMs s.txw s.rxq (bodyOp false l s.rxq) t := by
  obtain ⟨ty, c, d, hbody, hd⟩ := exists_take_body h2 hq
  have hslice : fbSlice (afterRxBody l s) 2 (d.length + 2) = ty :: c :: d := by
    rw [hd, fbSlice_afterRxBody hq, hbody]
  have hmax : d.length ≤ Config.maxData := by simp only [Config.maxData]; omega
  refine ⟨_, stepRxCheck_body (by rw [fbByte_afterRxBody_length, hl, hd]) hmax hslice, ?_⟩
  rw [bodyOp_whole hbody hd]
  split_ifs with hsum
  · exact decodedAs_failDecode (s := { afterRxBody l s with sum := _ }) .checksumMismatch rfl
  · refine decodedAs_deliver (s := { afterRxBody l s with sum := _ }) ty rfl hmax ?_ fun i hi => ?_
    · rw [fbSlice_succ, fbSlice_succ] at hslice
      exact (List.cons.inj (List.cons.inj hslice).2).2
    · have hspec := specified_afterRxBody hq (2 + i) (by omega)
      rwa [show 2 + (2 + i) = 4 + i by omega] at hspec

/-- From RX_BODY two codec steps end DECODE as `bodyOp` says (R136 to R138, R140). -/
theorem run_rxBody {s : State} {l : Nat} (hp : s.phase = .rxBody) (hl : (fbByte s 1).toNat = l)
    (hlegal : lenLegal l = true) :
    ∃ t, Sys2Proof.core.run 2 (withAgenda [.codec, .codec] s) = .next t ∧
      DecodedAs s.settleMs s.txw s.rxq (bodyOp s.rxErr l s.rxq) t := by
  obtain ⟨h2, h254⟩ := (lenLegal_iff l).mp hlegal
  suffices h : ∃ u t, codecStep s = .next u ∧ codecStep u = .next t ∧
      DecodedAs s.settleMs s.txw s.rxq (bodyOp s.rxErr l s.rxq) t by
    obtain ⟨u, t, hu, ht, hdec⟩ := h
    exact ⟨_, by rw [run_codec hu, run_codec ht, run_zero], hdec.withAgenda []⟩
  rw [codecStep_rxBody hp]
  cases he : s.rxErr with
  | true => exact ⟨_, _, if_pos he, rfl, decodedAs_failDecode .ioError rfl⟩
  | false =>
    rcases Nat.lt_or_ge s.rxq.length l with hq | hq
    · refine ⟨_, _, stepRxBody_short he hl h254 hq, rfl, ?_⟩
      rw [bodyOp_short hq]
      refine decodedAs_failDecode (s := { rxDrop l s with fb := _ }) .shortRead ?_
      rw [List.drop_length]; exact List.drop_eq_nil_of_le (Nat.le_of_lt hq)
    · obtain ⟨t, ht, hdec⟩ := codecStep_afterRxBody hl h2 h254 hq
      exact ⟨_, t, stepRxBody_whole he hl h254 hq, ht, hdec⟩

/-! ### DECODE from its header read on -/

theorem decodeOp_short (e' : Bool) {q : List Byte} (a : List Byte) (h : q.length < 2) :
    decodeOp false e' q a = (.fail .shortRead, q.length) :=
  if_pos h

/-- With two header bytes there, DECODE is the two tests of the header and then `bodyOp` (R134 to R137). -/
theorem decodeOp_pair (e' : Bool) (m l : Byte) (q a : List Byte) :
    decodeOp false e' (m :: l :: q) a =
      if m ≠ Config.magic then (.fail .badMagic, 2)
      else if !lenLegal l.toNat then (.fail .badLength, 2)
      else ((bodyOp e' l.toNat (q ++ a)).1, 2 + (bodyOp e' l.toNat (q ++ a)).2) := by
  have hlen : ¬ (m :: l :: q).length < Config.hdrBytes := by simp [Config.hdrBytes]
  rw [decodeOp, if_neg Bool.false_ne_true, if_neg hlen]
  simp only [List.getD_cons_zero, List.getD_cons_succ, List.drop_succ_cons, List.drop_zero, bodyOp]
  split_ifs <;> rfl

/-- What a header read of fewer than two bytes does (R133). -/
theorem stepRxHdr_short {s : State} (he : s.rxErr = false) (hq : s.rxq.length < 2) :
    stepRxHdr s = .next (failDecode .shortRead { rxDrop 2 s with fb := Memory.insertAll s.fb 0 (s.rxq.take 2) }) := by
  rw [stepRxHdr_eq he, checkHeader, if_pos (by simp only [List.length_take, Config.hdrBytes]; omega)]

/-- The state once the header bytes `m` and `l` were read and `q` is left in the queue (R133). -/
def afterRxHdr (m l : Byte) (q : List Byte) (s : State) : State :=
  { s with rxq := q, fb := Memory.insertAll s.fb 0 [m, l] }

theorem fbByte_afterRxHdr_magic (m l : Byte) (q : List Byte) (s : State) : fbByte (afterRxHdr m l q s) 0 = m :=
  fbByte_insertAll (s := s) 0 0 [m, l]

theorem fbByte_afterRxHdr_length (m l : Byte) (q : List Byte) (s : State) : fbByte (afterRxHdr m l q s) 1 = l :=
  fbByte_insertAll (s := s) 0 1 [m, l]

/-- What a header read of two bytes does (R134, R135). -/
theorem stepRxHdr_pair {s : State} {m l : Byte} {q : List Byte} (he : s.rxErr = false) (hq : s.rxq = m :: l :: q) :
    stepRxHdr s = .next (
      if m ≠ Config.magic then failDecode .badMagic (afterRxHdr m l q s)
      else if !lenLegal l.toNat then failDecode .badLength (afterRxHdr m l q s)
      else { afterRxHdr m l q s with phase := .rxBody }) := by
  have hread : { rxDrop 2 s with fb := Memory.insertAll s.fb 0 (s.rxq.take 2) } = afterRxHdr m l q s := by
    rw [rxDrop, hq]; rfl
  rw [stepRxHdr_eq he, hread, checkHeader, fbByte_afterRxHdr_magic, fbByte_afterRxHdr_length, hq]
  rfl

theorem codecStep_rxHdr {s : State} (h : s.phase = .rxHdr) : codecStep s = stepRxHdr s := by
  simp only [codecStep, h]

/-- A DECODE that failed at the header takes no further part in the run (R199, R206). -/
theorem run_failed_header {s u : State} {q : List Byte} {k : Kind} {n : Nat} (a : List Byte) (e : Bool)
    (hstep : codecStep s = .next u) (hu : DecodedAs s.settleMs s.txw q (.fail k, n) u) (hn : n ≤ q.length) :
    ∃ t, Sys2Proof.core.run 5 (withAgenda [.codec, .rx a, .rxErr e, .codec, .codec] s) = .next t ∧
      DecodedAs s.settleMs s.txw (q ++ a) (.fail k, n) t := by
  have harr := hu.arrivals a e hn
  refine ⟨_, ?_, harr.withAgenda []⟩
  rw [run_codec hstep, run_arrivals, run_codec_idle harr.phase, run_codec_idle harr.phase, run_zero]

/-- From RX_HDR the codec's steps end DECODE as `decodeOp` says, bytes and a level arriving between the two reads. -/
theorem run_rxHdr {s : State} (hp : s.phase = .rxHdr) (a : List Byte) (e : Bool) :
    ∃ t, Sys2Proof.core.run 5 (withAgenda [.codec, .rx a, .rxErr e, .codec, .codec] s) = .next t ∧
      DecodedAs s.settleMs s.txw (s.rxq ++ a) (decodeOp s.rxErr e s.rxq a) t := by
  have hstep := codecStep_rxHdr hp
  cases he : s.rxErr with
  | true =>
    have hfail : codecStep s = .next (failDecode .ioError s) := by rw [hstep, stepRxHdr, if_pos he]
    exact run_failed_header a e hfail (decodedAs_failDecode .ioError rfl) (Nat.zero_le _)
  | false =>
    match hq : s.rxq with
    | [] | [_] =>
      have hlt : s.rxq.length < 2 := by simp [hq]
      rw [← hq, decodeOp_short e a hlt]
      refine run_failed_header a e (hstep.trans (stepRxHdr_short he hlt)) ?_ le_rfl
      refine decodedAs_failDecode (s := { rxDrop 2 s with fb := _ }) .shortRead ?_
      rw [List.drop_length]; exact List.drop_eq_nil_of_le (Nat.le_of_lt hlt)
    | m :: l :: q =>
      have hhdr := hstep.trans (stepRxHdr_pair he hq)
      rw [decodeOp_pair]
      split_ifs at hhdr ⊢ with hm hl
      · exact run_failed_header a e hhdr (decodedAs_failDecode (s := afterRxHdr m l q s) .badMagic rfl)
          (Nat.le_add_left 2 _)
      · exact run_failed_header a e hhdr (decodedAs_failDecode (s := afterRxHdr m l q s) .badLength rfl)
          (Nat.le_add_left 2 _)
      · obtain ⟨t, hrun, hdec⟩ := run_rxBody
          (s := { afterRxHdr m l q s with phase := .rxBody, rxq := q ++ a, rxErr := e }) rfl
          (congrArg BitVec.toNat (fbByte_afterRxHdr_length m l q s)) (by simpa using hl)
        exact ⟨t, by rw [run_codec hhdr, run_arrivals]; exact hrun, hdec.behind_header m l⟩

/-- Settles O45: the codec's steps from RX_HDR are the run of `run_rxHdr`. -/
theorem decodeRealisesTheOperation : Obligations.DecodeRealisesTheOperation := by
  intro s a e hp
  obtain ⟨t, hrun, hdec⟩ := run_rxHdr hp a e
  exact ⟨t, hrun, hdec.result, hdec.rxq, hdec.phase, hdec.busy, hdec.done, hdec.settle, hdec.txw, hdec.payload⟩

/-! ### DECODE from its command on -/

theorem takeTurn_decode {s : State} (h : s.busy = false) :
    takeTurn (.host (encodeLine .decode)) s = .next { s with busy := true, done := false, phase := .rxWait } :=
  congrArg _ (takeCommand_decode h)

theorem stepRxWait_readable {s : State} (he : s.rxErr = false) (hq : s.rxq ≠ []) :
    stepRxWait s = .next { s with tmr := s.settleMs, phase := .rxSettle } := by
  have hr : rxReadable s = true := by simp [rxReadable, hq]
  rw [stepRxWait, if_neg (he ▸ Bool.false_ne_true), if_pos hr]

/-- The command, the wait and the delay: the run stands at the end of RX_SETTLE, SETTLE_MS ticks on (R130 to R132). -/
theorem run_decode_settle {s : State} (hb : s.busy = false) (he : s.rxErr = false) (hq : s.rxq ≠ []) (k : Nat)
    (rest : List Turn) :
    Sys2Proof.core.run (2 + s.settleMs.toNat + k)
        (withAgenda ([.host (encodeLine .decode), .codec] ++ List.replicate s.settleMs.toNat .tick ++ rest) s)
      = Sys2Proof.core.run k
        (withAgenda rest { s with busy := true, done := false, phase := .rxSettle, tmr := 0 }) := by
  have hwait : codecStep { s with busy := true, done := false, phase := .rxWait }
      = .next { s with busy := true, done := false, tmr := s.settleMs, phase := .rxSettle } :=
    stepRxWait_readable he hq
  rw [show 2 + s.settleMs.toNat + k = s.settleMs.toNat + k + 1 + 1 by omega, List.append_assoc, List.cons_append,
    List.cons_append, List.nil_append, run_cons (takeTurn_decode hb), run_codec hwait]
  exact run_ticks _ k rest _ rfl rfl

theorem codecStep_settled {s : State} (hp : s.phase = .rxSettle) (ht : s.tmr = 0) :
    codecStep s = .next { s with phase := .rxHdr } := by
  simp only [codecStep, hp]; exact if_pos ht

/-- Settles O46: after the delay the codec enters RX_HDR, and `run_rxHdr` does the rest on what is queued by then. -/
theorem decodeCommandRunsToItsResult : Obligations.DecodeCommandRunsToItsResult := by
  intro s b a e e' hb he hq
  obtain ⟨t, hrun, hdec⟩ := run_rxHdr
    (s := { s with busy := true, done := false, phase := .rxHdr, tmr := 0, rxq := s.rxq ++ b, rxErr := e }) rfl a e'
  refine ⟨t, ?_, hdec.result, hdec.rxq, hdec.phase, hdec.busy, hdec.done, hdec.settle, hdec.txw, hdec.payload⟩
  rw [run_decode_settle hb he hq, run_arrivals, run_codec (codecStep_settled rfl rfl)]
  exact hrun

end Sys2Proof.Machine
end

section
/-! PROOFS of the state family: the invariant (O48, O49), what may change the flags and SETTLE_MS (O51, O53), lines and
their instructions (O3, O4, O5), reset (O7, O8), idleness, the command port, the window's end, reads and ticks (O9, O12,
O15, O18, O19, O33). -/

namespace Sys2Proof.Machine

/-! ### The invariant where an operation ends, and where one goes on -/

/-- In IDLE the invariant asks for BUSY 0, a result code and FB's form, and for nothing else. -/
theorem inv_of_idle {s : State} (hp : s.phase = .idle) (hb : s.busy = false) (hr : ResultIsCode s)
    (hm : Memory.wf s.fb) : Inv s := by
  refine inv_before ⟨?_, ?_⟩ hr hm (.inl hp)
  · simp [hp, hb]
  · simp [hb]

/-- A phase that follows another within one operation leaves the flags in agreement. -/
theorem FlagsAgree.next_phase {s t : State} (h : FlagsAgree s) (hs : s.phase ≠ .idle) (ht : t.phase ≠ .idle)
    (hb : t.busy = s.busy) (hd : t.done = s.done) : FlagsAgree t := by
  obtain ⟨hbusy, hnot⟩ := h
  exact ⟨iff_of_true (hb.trans (hbusy.mpr hs)) ht, by rwa [hb, hd]⟩

/-- Starting an operation makes the flags agree (R23, R24). -/
theorem flagsAgree_started {s : State} (hp : s.phase ≠ .idle) (hb : s.busy = true) (hd : s.done = false) :
    FlagsAgree s :=
  ⟨iff_of_true hb hp, by simp [hd]⟩

/-- Settles O48: at reset PHASE is IDLE, RESULT is 0 and FB lists nothing. -/
theorem resetMeetsTheInvariant : Obligations.ResetMeetsTheInvariant :=
  inv_of_idle rfl rfl (code_le .ok) Memory.wf_reset

/-! ### Every access keeps the invariant -/

/-- An access while not BUSY that leaves the flags keeps the invariant if it keeps FB's form. -/
theorem inv_edited {s t : State} (h : Inv s) (hs : s.busy = false) (hp : t.phase = s.phase) (hb : t.busy = s.busy)
    (hr : t.result = s.result) (hm : Memory.wf t.fb) : Inv t :=
  inv_of_idle (hp.trans (inv_idle h hs)) (hb.trans hs) (by rw [ResultIsCode, hr]; exact h.result) hm

theorem dbufIndex_lt {n : Nat} (h : n < Config.maxData) : dbufIndex n < Config.fbSize := by
  simp only [dbufIndex, Config.frameOverhead, Config.fbSize, Config.maxData] at *; omega

theorem Executed.keeps_inv {i : Instr} {s t : State} (he : Executed i s t) (h : Inv s) : Inv t := by
  cases he with
  | unchanged => exact h
  | started p hb hp =>
    rcases hp with rfl | rfl
    · exact inv_before (flagsAgree_started nofun rfl rfl) h.result h.memory (.inr (.inl rfl))
    · exact inv_before (flagsAgree_started nofun rfl rfl) h.result h.memory (.inr (.inr (.inl rfl)))
  | settle v hb | type v hb | dlen v hb => exact inv_edited h hb rfl rfl rfl h.memory
  | window n b hb hn => exact inv_edited h hb rfl rfl rfl (Memory.wf_insert b h.memory (dbufIndex_lt hn))
  | read | arrived => exact inv_congr h rfl rfl rfl rfl rfl rfl rfl rfl rfl rfl
  | loaded uu ll ff vv =>
    exact inv_before (flagsAgree_started nofun rfl rfl) h.result
      (Memory.wf_insertAll _ h.memory (Nat.le_of_ble_eq_true rfl)) (.inr (.inl rfl))

/-! ### Every codec step keeps the invariant -/

/-- What is left of FB after a failed DECODE has its form, whatever stood there: nothing is left (R141). -/
theorem Memory.wf_keep_none (m : List Host.Cell) (lo : Nat) : Memory.wf (Memory.keep m lo (lo + 0)) := by
  have hnone : Memory.keep m lo (lo + 0) = [] :=
    List.filter_eq_nil_iff.mpr fun c _ => by simp
  rw [hnone]; exact Memory.wf_nil

theorem Memory.wf_buildHeader {s : State} (h : Memory.wf s.fb) : Memory.wf (buildHeader s).fb := by
  exact Memory.wf_insert _ (Memory.wf_insert _ (Memory.wf_insert _ (Memory.wf_insert _ h
    (by decide)) (by decide)) (by decide)) (by decide)

/-- A good header just read meets the invariant of RX_BODY (R134, R135). -/
theorem inv_afterRxHdr {s : State} {m l : Byte} (q : List Byte) (h : Inv s) (hp : s.phase = .rxHdr)
    (hm : m = Config.magic) (hl : lenLegal l.toNat = true) : Inv { afterRxHdr m l q s with phase := .rxBody } where
  flags := h.flags.next_phase (by rw [hp]; nofun) nofun rfl rfl
  result := h.result
  memory := Memory.wf_insertAll _ h.memory (Nat.le_of_ble_eq_true rfl)
  header _ := by
    refine ⟨fun i hi => ?_, (fbByte_afterRxHdr_magic m l q s).trans hm, ?_⟩
    · show (Memory.find (Memory.insertAll s.fb 0 [m, l]) (0 + i)).isSome = true
      rw [Memory.find_insertAll, if_pos (by simpa using hi)]
      simpa using hi
    · exact (congrArg (lenLegal ·.toNat) (fbByte_afterRxHdr_length m l q s)).trans hl
  body := nofun
  built := nofun
  timer _ := h.timer (.inl hp)

/-- Below FB[2] the body read changes nothing (R136). -/
theorem find_afterRxBody_header (l : Nat) (s : State) {a : Nat} (ha : a < 2) :
    Memory.find (afterRxBody l s).fb a = Memory.find s.fb a :=
  (Memory.find_insertAll s.fb 2 a (s.rxq.take l)).trans (if_neg (by omega))

/-- A whole body just read meets the invariant of RX_CHECK (R136). -/
theorem inv_afterRxBody {s : State} {l : Nat} (h : Inv s) (hp : s.phase = .rxBody) (hl : (fbByte s 1).toNat = l)
    (hq : l ≤ s.rxq.length) (hb : 2 + l ≤ 256) : Inv (afterRxBody l s) where
  flags := h.flags.next_phase (by rw [hp]; nofun) nofun rfl rfl
  result := h.result
  memory := by
    refine Memory.wf_insertAll _ h.memory ?_
    rw [List.length_take, Nat.min_eq_left hq]; exact hb
  header _ := by
    obtain ⟨hspec, hmagic, hlegal⟩ := h.header (.inl hp)
    refine ⟨fun i hi => ?_, ?_, ?_⟩
    · rw [find_afterRxBody_header l s (by omega)]; exact hspec i hi
    · exact (fbByte_insertAll (s := s) 2 0 _).trans ((if_neg (by omega)).trans hmagic)
    · rw [fbByte_afterRxBody_length]; exact hlegal
  body _ := by
    rw [fbByte_afterRxBody_length, hl]
    exact specified_afterRxBody hq
  built := nofun
  timer _ := h.timer (.inr (.inl hp))

/-- The frame just built meets the invariant of TX_SEND (R112). -/
theorem inv_afterTxBuild {s : State} (h : Inv s) (hp : s.phase = .txBuild) (hl : s.dlen.toNat ≤ Config.maxData) :
    Inv (afterTxBuild s) where
  flags := h.flags.next_phase (by rw [hp]; nofun) nofun rfl rfl
  result := h.result
  memory := Memory.wf_buildHeader h.memory
  header := nofun
  body := nofun
  built _ := by
    refine ⟨hl, (fbSlice_afterTxBuild s).trans ?_⟩
    exact congrArg (frameBytes s.typ) (fbSlice_eq fun i _ => fbByte_afterTxBuild s (Nat.le_add_right 4 i)).symm
  timer := nofun

/-- The end of the delay meets the invariant of RX_HDR: TMR has run out (R140). -/
theorem inv_settled {s : State} (h : Inv s) (hp : s.phase = .rxSettle) (ht : s.tmr = 0) :
    Inv { s with phase := .rxHdr } where
  flags := h.flags.next_phase (by rw [hp]; nofun) nofun rfl rfl
  result := h.result
  memory := h.memory
  header := nofun
  body := nofun
  built := nofun
  timer _ := ht

theorem Sequenced.keeps_inv {s t : State} (hs : Sequenced s t) (h : Inv s) : Inv t := by
  cases hs with
  | unchanged => exact h
  | failed k => exact inv_of_idle rfl rfl (code_le k) (Memory.wf_keep_none _ _)
  | waited hp =>
    exact inv_before (h.flags.next_phase (by rw [hp]; nofun) nofun rfl rfl) h.result h.memory (.inr (.inr (.inr rfl)))
  | settled hp ht => exact inv_settled h hp ht
  | header hp m l q _ hm hl => exact inv_afterRxHdr q h hp hm hl
  | body hp l hl hq hb => exact inv_afterRxBody h hp hl hq hb
  | delivered => exact inv_of_idle rfl rfl (code_le .ok) (Memory.wf_keep _ _ h.memory)
  | tooLong => exact inv_of_idle rfl rfl (code_le .badLength) h.memory
  | built hp hl => exact inv_afterTxBuild h hp hl
  | sent _ k => exact inv_of_idle rfl rfl (code_le k) (Memory.wf_keep _ _ h.memory)

/-- Settles O49: the host's accesses and the codec's steps keep the invariant, a counted tick is in RX_SETTLE, where TMR
may be anything, reset ends in IDLE, and no other turn touches what the invariant speaks of. -/
theorem stepKeepsTheInvariant : Obligations.StepKeepsTheInvariant := by
  intro s t h hstep
  cases step_stepped hstep with
  | access _ rest _ _ _ _ he => exact he.keeps_inv (inv_withAgenda rest h)
  | codec rest _ _ hs => exact hs.keeps_inv (inv_withAgenda rest h)
  | counted rest _ hp => exact inv_before h.flags h.result h.memory (.inr (.inr (.inr hp)))
  | reset => exact inv_of_idle rfl rfl (code_le .ok) Memory.wf_nil
  | uncounted rest => exact inv_withAgenda rest h
  | wire | arrived | level | accept => exact inv_congr h rfl rfl rfl rfl rfl rfl rfl rfl rfl rfl

/-! ### What changes the flags -/

/-- The instructions that may start an operation: those that write CMD (R23; FRAME.SET by log entry 13). -/
def WritesCommand (i : Instr) : Prop :=
  i = .encode ∨ i = .decode ∨ (∃ c, i = .wrCmd c) ∨ ∃ uu ll ff vv, i = .frameSet uu ll ff vv

/-- BUSY, DONE and RESULT are the same in `t` as in `s`. -/
def SameFlags (s t : State) : Prop :=
  t.busy = s.busy ∧ t.done = s.done ∧ t.result = s.result

/-- An access leaves flags and phase alone, or is a CMD write taken while not BUSY. -/
theorem Executed.flags {i : Instr} {s t : State} (h : Executed i s t) :
    (SameFlags s t ∧ t.phase = s.phase) ∨ (s.busy = false ∧ WritesCommand i) := by
  cases h with
  | started _ hb _ hi =>
    obtain rfl | rfl | ⟨c, rfl⟩ := hi
    · exact .inr ⟨hb, .inl rfl⟩
    · exact .inr ⟨hb, .inr (.inl rfl)⟩
    · exact .inr ⟨hb, .inr (.inr (.inl ⟨c, rfl⟩))⟩
  | loaded uu ll ff vv hb hi => exact .inr ⟨hb, .inr (.inr (.inr ⟨uu, ll, ff, vv, hi⟩))⟩
  | unchanged | settle | type | dlen | window | read | arrived => exact .inl ⟨⟨rfl, rfl, rfl⟩, rfl⟩

/-- A codec step leaves the flags alone, or ends the operation. -/
theorem Sequenced.flags {s t : State} (h : Sequenced s t) :
    SameFlags s t ∨ (s.phase ≠ .idle ∧ t.phase = .idle) := by
  cases h with
  | unchanged | waited | settled | header | body | built => exact .inl ⟨rfl, rfl, rfl⟩
  | failed _ _ _ _ _ _ hp => exact .inr ⟨by rcases hp with hp | hp | hp | hp <;> rw [hp] <;> nofun, rfl⟩
  | delivered hp | tooLong hp | sent hp => exact .inr ⟨by rw [hp]; nofun, rfl⟩

/-- What a turn of the environment or the clock leaves alone (R32, R54, R56, R57). -/
theorem takeTurn_environment_flags {u : Turn} {s t : State}
    (hu : (∃ bs, u = .rx bs) ∨ (∃ e, u = .rxErr e) ∨ u = .tick ∨ ∃ k, u = .txAcc k) (h : takeTurn u s = .next t) :
    SameFlags s t ∧ t.phase = s.phase := by
  obtain ⟨bs, rfl⟩ | ⟨e, rfl⟩ | rfl | ⟨k, rfl⟩ := hu
  · rw [takeTurn_rx] at h; cases h; exact ⟨⟨rfl, rfl, rfl⟩, rfl⟩
  · cases h; exact ⟨⟨rfl, rfl, rfl⟩, rfl⟩
  · cases h; exact ⟨⟨clockTick_busy s, clockTick_done s, clockTick_result s⟩, clockTick_phase s⟩
  · cases h; exact ⟨⟨rfl, rfl, rfl⟩, rfl⟩

/-- The four ways a step of the machine can go about the flags (R36). -/
theorem step_flags {s t : State} (h : step s = .next t) :
    SameFlags s t ∨ s.agenda.head? = some .reset ∨
    (s.busy = false ∧ ∃ line i, s.agenda.head? = some (.host line) ∧ decodeLine line = .ok i ∧ WritesCommand i) ∨
    ((s.agenda.head? = some .codec ∨ s.agenda = []) ∧ s.phase ≠ .idle ∧ t.phase = .idle) := by
  cases step_stepped h with
  | access line rest i _ ha hd he =>
    rcases he.flags with ⟨hsame, -⟩ | ⟨hb, hi⟩
    · exact .inl hsame
    · exact .inr (.inr (.inl ⟨hb, line, i, by rw [ha]; rfl, hd, hi⟩))
  | codec rest _ ha hs =>
    rcases hs.flags with hsame | hend
    · exact .inl hsame
    · exact .inr (.inr (.inr ⟨ha.imp (fun e => by rw [e]; rfl) And.left, hend⟩))
  | reset rest ha => exact .inr (.inl (by rw [ha]; rfl))
  | wire | arrived | level | counted | uncounted | accept => exact .inl ⟨rfl, rfl, rfl⟩

/-- Settles O51, from what an access, a codec step and a turn of the environment do to the flags. -/
theorem flagsChangeOnlyByCommandAndEnd : Obligations.FlagsChangeOnlyByCommandAndEnd := by
  intro s t
  refine ⟨step_flags, fun i h1 h2 h3 h4 he => ?_, fun rest u ha hu hstep => ?_, fun hc hp => ?_⟩
  · rcases (exec_executed he).flags with ⟨⟨hb, hd, hr⟩, hph⟩ | ⟨-, hi⟩
    · exact ⟨hb, hd, hr, hph⟩
    · obtain rfl | rfl | ⟨c, rfl⟩ | ⟨uu, ll, ff, vv, rfl⟩ := hi
      · exact absurd rfl h1
      · exact absurd rfl h2
      · exact absurd rfl (h3 c)
      · exact absurd rfl (h4 uu ll ff vv)
  · rw [step_cons ha] at hstep
    obtain ⟨⟨hb, hd, hr⟩, hph⟩ := takeTurn_environment_flags hu hstep
    exact ⟨hb, hd, hr, hph⟩
  · rcases (codecStep_sequenced hc).flags with hsame | ⟨hs, ht⟩
    · exact hsame
    · exact absurd hp (by simp [hs, ht])

/-! ### What changes SETTLE_MS -/

theorem Executed.settleMs {i : Instr} {s t : State} (h : Executed i s t) :
    t.settleMs = s.settleMs ∨ (s.busy = false ∧ i = .wrSettleMs t.settleMs) := by
  cases h with
  | settle v hb hi => exact .inr ⟨hb, hi⟩
  | unchanged | started | type | dlen | window | read | arrived | loaded => exact .inl rfl

theorem Sequenced.settleMs {s t : State} (h : Sequenced s t) : t.settleMs = s.settleMs := by
  cases h <;> rfl

/-- Settles O53: among the accesses only WR SETTLE_MS writes it, no codec step does, and of the other turns only reset. -/
theorem settleChangesOnlyByItsWrite : Obligations.SettleChangesOnlyByItsWrite := by
  intro s t hstep
  cases step_stepped hstep with
  | access line rest i _ ha hd he =>
    rcases he.settleMs with hsame | ⟨hb, rfl⟩
    · exact .inl hsame
    · exact .inr (.inr ⟨hb, line, by rw [ha]; rfl, hd⟩)
  | codec _ _ _ hs => exact .inl hs.settleMs
  | reset rest ha => exact .inr (.inl ⟨by rw [ha]; rfl, rfl⟩)
  | wire | arrived | level | counted | uncounted | accept => exact .inl rfl

/-! ### Lines and their instructions -/

/-- Settles O4, row by row. -/
theorem decodeOfEncodeIsIdentity : Obligations.DecodeOfEncodeIsIdentity := by
  intro i
  cases i with
  | nop => exact Laws.RoundTrip.nop
  | encode => exact Laws.RoundTrip.encode
  | decode => exact Laws.RoundTrip.decode
  | reserved3 => exact Laws.RoundTrip.reserved3
  | wrSettleMs v => exact Laws.RoundTrip.wrSettleMs v
  | wrType v => exact Laws.RoundTrip.wrType v
  | wrDlen v => exact Laws.RoundTrip.wrDlen v
  | wrd n b => exact Laws.RoundTrip.wrd n b
  | wrCmd c => exact Laws.RoundTrip.wrCmd c
  | rdStatus => exact Laws.RoundTrip.rdStatus
  | rdResult => exact Laws.RoundTrip.rdResult
  | rdType => exact Laws.RoundTrip.rdType
  | rdDlen => exact Laws.RoundTrip.rdDlen
  | rdSettleMs => exact Laws.RoundTrip.rdSettleMs
  | rdd n => exact Laws.RoundTrip.rdd n
  | frame t d => exact Laws.RoundTrip.frame t d
  | frameSet uu ll ff vv => exact Laws.RoundTrip.frameSet uu ll ff vv

/-- `i` is well-formed and `line` is the line it encodes to. -/
def IsLineOf (line : List Byte) (i : Instr) : Prop :=
  i.WellFormed ∧ encodeLine i = line

theorem byte_eq_ofNat {b : Byte} {n : Nat} (h : b.toNat = n) : b = BitVec.ofNat 8 n := by
  rw [← h, BitVec.ofNat_toNat, BitVec.setWidth_eq]

theorem decodeCommand_isLineOf {c : Byte} {i : Instr} (h : decodeCommand c = .ok i) : IsLineOf [selCmd, c] i := by
  unfold decodeCommand at h
  split at h <;> cases h
  all_goals
    obtain rfl := byte_eq_ofNat ‹c.toNat = _›
    exact ⟨rfl, rfl⟩

theorem decodeRegRead_isLineOf {n : Byte} {i : Instr} (h : decodeRegRead n = .ok i) : IsLineOf [selRegRd, n] i := by
  unfold decodeRegRead at h
  split at h <;> cases h
  all_goals
    obtain rfl := byte_eq_ofNat ‹n.toNat = _›
    exact ⟨rfl, rfl⟩

theorem decodeRegWrite_isLineOf {n : Byte} {v : List Byte} {i : Instr} (h : decodeRegWrite n v = .ok i) :
    IsLineOf (selRegWr :: n :: v) i := by
  unfold decodeRegWrite at h
  split at h
  case h_1 c hn =>
    split_ifs at h with hc
    cases h
    obtain rfl := byte_eq_ofNat hn
    exact ⟨rfl, congrArg (fun b => [selRegWr, 0, b]) (BitVec.setWidth_setWidth_eq_self hc)⟩
  case h_4 b hn | h_5 b hn =>
    cases h
    obtain rfl := byte_eq_ofNat hn
    exact ⟨rfl, rfl⟩
  case h_6 lo hi hn =>
    cases h
    obtain rfl := byte_eq_ofNat hn
    refine ⟨rfl, ?_⟩
    rw [encodeLine, BitVec.extractLsb'_append_eq_right, BitVec.extractLsb'_append_eq_left]
    rfl
  case h_7 => split_ifs at h
  case h_2 | h_3 => cases h

/-- A frame that decodes has the four header bytes of its payload before its data (R80). -/
theorem decodeFrame_isLineOf {w : List Byte} {i : Instr} (h : decodeFrame w = .ok i) : IsLineOf (selWire :: w) i := by
  unfold decodeFrame at h
  split at h
  · next m l t c d =>
    split_ifs at h with hm hl hsize hsum
    cases h
    have hlen : l = lenByte d.length := byte_eq_ofNat (Decidable.not_not.mp hsize).symm
    have hmax : d.length ≤ Config.maxData := by
      have := (lenLegal_iff l.toNat).mp (by simpa using hl)
      simp only [Config.lenOverhead, Config.maxData] at *; omega
    refine ⟨decide_eq_true hmax, ?_⟩
    rw [encodeLine, frameBytes, ← hlen, Decidable.not_not.mp hsum, ← Decidable.not_not.mp hm]
    rfl
  · cases h

theorem decodeSetFrame_isLineOf {w : List Byte} {i : Instr} (h : decodeSetFrame w = .ok i) :
    IsLineOf (selSet :: w) i := by
  unfold decodeSetFrame at h
  split at h
  · split_ifs at h with hw
    cases h
    exact ⟨rfl, congrArg (selSet :: ·) hw.symm⟩
  · cases h

/-- Select by select, whatever decodes is what its line encodes. -/
theorem decodeLine_isLineOf {line : List Byte} {i : Instr} (h : decodeLine line = .ok i) : IsLineOf line i := by
  unfold decodeLine at h
  split at h
  · cases h
  next sel rest =>
  split at h
  case h_1 w hs => obtain rfl := byte_eq_ofNat hs; exact decodeFrame_isLineOf h
  case h_2 w hs => obtain rfl := byte_eq_ofNat hs; exact decodeSetFrame_isLineOf h
  case h_3 c hs => obtain rfl := byte_eq_ofNat hs; exact decodeCommand_isLineOf h
  case h_4 n v hs => obtain rfl := byte_eq_ofNat hs; exact decodeRegWrite_isLineOf h
  case h_5 n hs => obtain rfl := byte_eq_ofNat hs; exact decodeRegRead_isLineOf h
  case h_6 j b hs =>
    obtain rfl := byte_eq_ofNat hs
    split_ifs at h with hj
    cases h
    exact ⟨decide_eq_true hj, congrArg (fun a => [selWinWr, a, b]) (byte_eq_ofNat rfl).symm⟩
  case h_7 j hs =>
    obtain rfl := byte_eq_ofNat hs
    split_ifs at h with hj
    cases h
    exact ⟨decide_eq_true hj, congrArg (fun a => [selWinRd, a]) (byte_eq_ofNat rfl).symm⟩
  case h_8 => split_ifs at h

/-- Settles O5 by `decodeLine_isLineOf`. -/
theorem encodeOfDecodeIsIdentity : Obligations.EncodeOfDecodeIsIdentity :=
  fun _ _ h => decodeLine_isLineOf h

/-- Settles O3: the decoder, run on each of the nine lines. -/
theorem wordsOfTheSpecDecode : Obligations.WordsOfTheSpecDecode := by
  unfold Obligations.WordsOfTheSpecDecode
  decide

/-! ### Reset and idleness -/

/-- Settles O7: the values of the definition, and FB lists no place. -/
theorem resetLeavesTheBlockIdle : Obligations.ResetLeavesTheBlockIdle :=
  ⟨rfl, rfl, rfl, rfl, rfl, rfl, rfl, rfl, rfl, fun _ => rfl⟩

/-- Settles O8: the turn is `blockReset`, which names no field of the transport. -/
theorem resetInputEndsAnyOperation : Obligations.ResetInputEndsAnyOperation := by
  intro s rest ha
  exact ⟨blockReset (withAgenda rest s), step_cons ha, rfl, rfl, rfl, rfl, rfl, rfl, rfl, rfl, rfl, fun _ => rfl,
    rfl, rfl, rfl, rfl⟩

/-- In IDLE the outside's silence changes nothing: TMR does not count and the codec has no step (R31, R32). -/
theorem quietStep_idle {s : State} (h : s.phase = .idle) : quietStep s = .next s := by
  rw [quietStep, if_neg (by simp [h]), ← takeTurn_codec, takeTurn_codec_idle h]

/-- Settles O9: with no turn to come the step is the quiet one. -/
theorem idleBlockWaits : Obligations.IdleBlockWaits := by
  intro s ha hp
  rw [step_nil ha, quietStep_idle hp]

/-! ### The command port and the window's end -/

theorem exec_wrCmd (c : BitVec 2) (s : State) : exec (.wrCmd c) s = .next (takeCommand c s) := rfl

theorem exec_wrCmd_none {c : BitVec 2} (s : State) (h1 : c ≠ 1) (h2 : c ≠ 2) : exec (.wrCmd c) s = .next s := by
  rw [exec_wrCmd, takeCommand_none s h1 h2]

/-- Settles O12, from what `takeCommand` does with each code. -/
theorem commandPortStartsOrIgnores : Obligations.CommandPortStartsOrIgnores := by
  refine ⟨fun s hb => ?_, fun s hb => ?_, rfl⟩
  · have encodes := exec_wrCmd 1 s
    have decodes := exec_wrCmd 2 s
    rw [takeCommand_encode hb] at encodes
    rw [takeCommand_decode hb] at decodes
    exact ⟨exec_wrCmd_none s (by decide) (by decide), encodes, decodes, exec_wrCmd_none s (by decide) (by decide),
      encodes, decodes⟩
  · have ignored : ∀ c, exec (.wrCmd c) s = .next s := fun c => by rw [exec_wrCmd, takeCommand_busy c hb]
    exact ⟨ignored, ignored 0, ignored 1, ignored 2, ignored 3⟩

/-- Settles O15: both accesses test the index first. -/
theorem windowIndexBeyondIsRefused : Obligations.WindowIndexBeyondIsRefused :=
  fun _ _ _ h => ⟨if_neg (Nat.not_lt.mpr h), if_neg (Nat.not_lt.mpr h)⟩

/-! ### Host reads -/

/-- Settles O18: the read does not look at BUSY. -/
theorem settleReadsAtAnyTime : Obligations.SettleReadsAtAnyTime :=
  fun _ => rfl

theorem hostReadIdle_of_busy (v free : Word) {s : State} (h : s.busy = true) :
    hostReadIdle v free s = { s with rdata := free, draws := s.draws + 1 } :=
  if_pos h

theorem execRdd_window {i : Nat} (s : State) (h : i < Config.maxData) :
    execRdd i s = .next
      (hostReadIdle ((fbByte s (dbufIndex i)).setWidth 16) ((Config.freeByteRead s.draws).setWidth 16) s) :=
  if_pos h

/-- Settles O19: each of the four reads returns the free value of its draw. -/
theorem readsWhileBusyAreUnspecified : Obligations.ReadsWhileBusyAreUnspecified := by
  intro s i hb hi
  refine ⟨⟨Config.freeResultRead s.draws, ?_⟩, ⟨Config.freeByteRead s.draws, ?_⟩, ⟨Config.freeByteRead s.draws, ?_⟩,
    ⟨Config.freeByteRead s.draws, ?_⟩⟩
  · exact congrArg _ (hostReadIdle_of_busy _ _ hb)
  · exact congrArg _ (hostReadIdle_of_busy _ _ hb)
  · exact congrArg _ (hostReadIdle_of_busy _ _ hb)
  · exact (execRdd_window s (Nat.lt_succ_of_le hi)).trans (congrArg _ (hostReadIdle_of_busy _ _ hb))

/-! ### Ticks -/

theorem clockTick_counts {s : State} (hp : s.phase = .rxSettle) (ht : s.tmr ≠ 0) :
    clockTick s = { s with tmr := s.tmr - 1 } :=
  if_pos ⟨hp, ht⟩

theorem clockTick_still {s : State} (h : s.phase ≠ .rxSettle ∨ s.tmr = 0) : clockTick s = s := by
  refine if_neg fun ⟨hp, ht⟩ => ?_
  exact h.elim (· hp) ht

/-- Settles O33: the turn is `clockTick` on the state without it. -/
theorem tickCountsOnlyInSettle : Obligations.TickCountsOnlyInSettle := by
  intro s rest ha
  have hstep : step s = .next (clockTick (withAgenda rest s)) := step_cons ha
  refine ⟨fun hp ht => ?_, fun h => ?_⟩
  · exact hstep.trans (congrArg _ (clockTick_counts hp ht))
  · exact hstep.trans (congrArg _ (clockTick_still h))

end Sys2Proof.Machine
end

section
/-! PROOFS of the memory family: the codec steps that stay inside FB (O50), what TX_SEND leaves (O42), and what may change
the transport's fields rx_err, RXQ and TXW (O54, O55, O56). -/

namespace Sys2Proof.Machine

/-! ### No rule reaches FB beyond its end -/

/-- While a body is read or checked its length byte is legal (R82, R135). -/
theorem Inv.len_le {s : State} (h : Inv s) (hp : s.phase = .rxBody ∨ s.phase = .rxCheck) :
    (fbByte s 1).toNat ≤ 254 := by
  obtain ⟨-, -, hlegal⟩ := h.header hp
  exact ((lenLegal_iff _).mp hlegal).2

theorem codecStep_txSend {s : State} (h : s.phase = .txSend) : codecStep s = stepTxSend s := by
  simp only [codecStep, h]

/-- From a state of the invariant the codec's step answers a next state: LEN and DLEN are within the spec's bounds where
they say how far FB is read or written (R51). -/
theorem codecStep_answers {s : State} (h : Inv s) : ∃ t, codecStep s = .next t := by
  cases hp : s.phase <;> simp only [codecStep, hp]
  case idle => exact ⟨_, rfl⟩
  case rxWait => unfold stepRxWait; split_ifs <;> exact ⟨_, rfl⟩
  case rxSettle => unfold stepRxSettle; split_ifs <;> exact ⟨_, rfl⟩
  case rxHdr =>
    cases he : s.rxErr with
    | true => exact ⟨_, if_pos he⟩
    | false => exact ⟨_, stepRxHdr_eq he⟩
  case rxBody =>
    cases he : s.rxErr with
    | true => exact ⟨_, if_pos he⟩
    | false => exact ⟨_, stepRxBody_eq he rfl (h.len_le (.inl hp))⟩
  case rxCheck =>
    have hdata : (fbByte s 1).toNat - Config.lenOverhead ≤ Config.maxData :=
      Nat.sub_le_sub_right (h.len_le (.inr hp)) 2
    rw [stepRxCheck_eq rfl hdata]
    split_ifs <;> exact ⟨_, rfl⟩
  case txBuild =>
    rcases Nat.lt_or_ge Config.maxData s.dlen.toNat with hl | hl
    · exact ⟨_, stepTxBuild_long hl⟩
    · exact ⟨_, stepTxBuild_short hl⟩
  case txSend =>
    obtain ⟨hl, -⟩ := h.built hp
    exact ⟨_, stepTxSend_eq hl⟩

theorem codecStep_noFault {s : State} (h : Inv s) : NoFault (codecStep s) := by
  obtain ⟨t, ht⟩ := codecStep_answers h
  rw [ht]; exact nofun

theorem arrive_noFault (bs : List Byte) (s : State) : NoFault (arrive bs s) := by
  rw [arrive_eq]; exact nofun

/-- No instruction faults, in any state. -/
theorem exec_noFault (i : Instr) (s : State) : NoFault (exec i s) := by
  cases i with
  | wrd n b => simp only [exec, execWrd]; split_ifs <;> exact nofun
  | rdd n => simp only [exec, execRdd]; split_ifs <;> exact nofun
  | frame t d =>
    simp only [exec, execFrame]
    split_ifs
    · exact arrive_noFault _ s
    · exact nofun
  | nop | encode | decode | reserved3 | wrSettleMs | wrType | wrDlen | wrCmd | rdStatus | rdResult | rdType | rdDlen
  | rdSettleMs | frameSet => exact nofun

theorem undecodedLine_noFault (why : Reject) (line : List Byte) (s : State) : NoFault (undecodedLine why line s) := by
  unfold undecodedLine
  cases wireBytes line with
  | none => exact nofun
  | some bs => exact arrive_noFault bs s

theorem takeTurn_noFault (u : Turn) {s : State} (h : Inv s) : NoFault (takeTurn u s) := by
  cases u with
  | host line =>
    show NoFault (hostTurn line s)
    cases hd : decodeLine line with
    | ok i => rw [hostTurn_ok s hd]; exact exec_noFault i s
    | error why => rw [hostTurn_error s hd]; exact undecodedLine_noFault why line s
  | codec => exact codecStep_noFault h
  | rx bs => exact arrive_noFault bs s
  | rxErr | tick | txAcc | reset => exact nofun

theorem quietStep_noFault {s : State} (h : Inv s) : NoFault (quietStep s) := by
  unfold quietStep
  split_ifs
  · exact nofun
  · exact codecStep_noFault h

/-- Settles O50: only the codec's steps use FB by length, and the invariant bounds the lengths. -/
theorem noStepFaults : Obligations.NoStepFaults := by
  intro s h
  cases ha : s.agenda with
  | nil => rw [step_nil ha]; exact quietStep_noFault h
  | cons u rest => rw [step_cons ha]; exact takeTurn_noFault u (inv_withAgenda rest h)

/-! ### TX_SEND -/

theorem txCount_exactly {s : State} {k : Nat} (n : Nat) (h : s.txNext = .exactly k) : txCount n s = min k n := by
  simp only [txCount, h]

theorem txCount_all {s : State} (n : Nat) (h : s.txNext = .all) : txCount n s = n := by
  simp only [txCount, h]

/-- After ENCODE a header place reads as the free value of the generation begun there (R38). -/
theorem fbByte_endEncode_header (k : Kind) (s : State) {a : Nat} (h : a < 4) :
    fbByte (endEncode k s) a = Config.freeFb s.draws a := by
  rw [fbByte_of_none (endEncode_find_none k s h), if_pos h]; rfl

/-- Settles O42: TX_SEND is one `txAppend` of the accepted count and then `endEncode`. -/
theorem sendStepAppendsAnAcceptedPart : Obligations.SendStepAppendsAnAcceptedPart := by
  intro s hp hl
  refine ⟨txCount (4 + s.dlen.toNat) s, _, (codecStep_txSend hp).trans (stepTxSend_eq hl), txCount_le _ _, rfl, ?_,
    rfl, rfl, rfl, fun _ => txCount_exactly _, txCount_all _, rfl, rfl, rfl, rfl, rfl, fun a h4 h256 => ?_,
    fun a h4 => ?_, rfl, rfl⟩
  · exact apply_ite Kind.code _ _ _
  · exact fbByte_endEncode _ ⟨h4, h256⟩
  · exact ⟨endEncode_find_none _ _ h4, fbByte_endEncode_header _ _ h4⟩

/-! ### What changes rx_err -/

theorem Executed.rxErr {i : Instr} {s t : State} (h : Executed i s t) : t.rxErr = s.rxErr := by
  cases h <;> rfl

theorem Sequenced.rxErr {s t : State} (h : Sequenced s t) : t.rxErr = s.rxErr := by
  cases h <;> rfl

/-- Settles O54: no access and no codec step writes rx_err, and of the other turns only its own does. -/
theorem errorLevelIsTheTransports : Obligations.ErrorLevelIsTheTransports := by
  intro s t hstep
  cases step_stepped hstep with
  | access _ _ _ _ _ _ he => exact .inl he.rxErr
  | codec _ _ _ hs => exact .inl hs.rxErr
  | level e rest ha => exact .inr (by rw [ha]; rfl)
  | wire | arrived | counted | uncounted | accept | reset => exact .inl rfl

/-! ### What changes RXQ -/

/-- Of the host's lines only a frame's adds to RXQ, and it adds the frame (log entry 12). -/
theorem Executed.rxq {i : Instr} {s t : State} (h : Executed i s t) :
    t.rxq = s.rxq ∨ ∃ ty d, i = .frame ty d ∧ t.rxq = s.rxq ++ frameBytes ty d := by
  cases h with
  | arrived ty d hi => exact .inr ⟨ty, d, hi, rfl⟩
  | unchanged | started | settle | type | dlen | window | read | loaded => exact .inl rfl

/-- A codec step leaves RXQ alone, or takes two bytes off its head in RX_HDR, or LEN bytes in RX_BODY (R133, R136). -/
theorem Sequenced.rxq {s t : State} (h : Sequenced s t) :
    t.rxq = s.rxq ∨ (s.phase = .rxHdr ∧ t.rxq = s.rxq.drop 2) ∨
      (s.phase = .rxBody ∧ t.rxq = s.rxq.drop (fbByte s 1).toNat) := by
  cases h with
  | failed _ _ _ _ _ _ _ hq =>
    obtain rfl | ⟨hp, rfl⟩ | ⟨hp, rfl⟩ := hq
    · exact .inl rfl
    · exact .inr (.inl ⟨hp, rfl⟩)
    · exact .inr (.inr ⟨hp, rfl⟩)
  | header hp m l q hq => exact .inr (.inl ⟨hp, by rw [hq]; rfl⟩)
  | body hp l hl => exact .inr (.inr ⟨hp, by rw [hl]⟩)
  | unchanged | waited | settled | delivered | tooLong | built | sent => exact .inl rfl

/-- The line of a frame is the wire's select and the frame's bytes. -/
theorem line_eq_of_decode_frame {line : List Byte} {ty : Byte} {d : List Byte}
    (h : decodeLine line = .ok (.frame ty d)) : line = selWire :: frameBytes ty d :=
  (encodeOfDecodeIsIdentity _ _ h).2.symm

/-- Settles O55, from what an access and a codec step do to RXQ; the other turns are read off. -/
theorem receiveQueueIsFifo : Obligations.ReceiveQueueIsFifo := by
  intro s t h hstep
  cases step_stepped hstep with
  | access line rest i _ ha hd he =>
    rcases he.rxq with hsame | ⟨ty, d, rfl, hq⟩
    · exact .inl hsame
    · exact .inr (.inr (.inl ⟨frameBytes ty d, by rw [ha, line_eq_of_decode_frame hd]; rfl, hq⟩))
  | codec rest _ ha hs =>
    have hagent := ha.imp (congrArg List.head?) And.left
    rcases hs.rxq with hsame | hhdr | ⟨hp, hq⟩
    · exact .inl hsame
    · exact .inr (.inr (.inr ⟨hagent, .inl hhdr⟩))
    · exact .inr (.inr (.inr ⟨hagent, .inr ⟨hp, h.len_le (.inl hp), hq⟩⟩))
  | wire bs rest ha => exact .inr (.inr (.inl ⟨bs, by rw [ha]; rfl, rfl⟩))
  | arrived bs rest ha => exact .inr (.inl ⟨bs, by rw [ha]; rfl, rfl⟩)
  | level | counted | uncounted | accept | reset => exact .inl rfl

/-! ### What changes TXW -/

theorem Executed.txw {i : Instr} {s t : State} (h : Executed i s t) : t.txw = s.txw := by
  cases h <;> rfl

/-- A codec step leaves TXW alone, or appends in TX_SEND a leading part of the image in FB (R112, R113). -/
theorem Sequenced.txw {s t : State} (h : Sequenced s t) :
    t.txw = s.txw ∨
      (s.phase = .txSend ∧ ∃ k, t.txw = s.txw ++ (fbSlice s 0 (Config.frameOverhead + s.dlen.toNat)).take k) := by
  cases h with
  | sent hp _ j => exact .inr ⟨hp, j, rfl⟩
  | unchanged | failed | waited | settled | header | body | delivered | tooLong | built => exact .inl rfl

/-- Settles O56: only TX_SEND appends to TXW, and by the invariant the image it sends is the frame of the operands. -/
theorem onlyFramesGoOnTheWire : Obligations.OnlyFramesGoOnTheWire := by
  intro s t h hstep
  cases step_stepped hstep with
  | access _ _ _ _ _ _ he => exact .inl he.txw
  | codec rest _ _ hs =>
    have hinv := inv_withAgenda rest h
    rcases hs.txw with hsame | ⟨hp, k, hk⟩
    · exact .inl hsame
    · obtain ⟨-, himage⟩ := hinv.built hp
      rw [himage] at hk
      exact .inr ⟨hp, k, hk⟩
  | wire | arrived | level | counted | uncounted | accept | reset => exact .inl rfl

end Sys2Proof.Machine
end

section
/-! PROOFS of the encoding family: the two wire rows and the reserved command (O6, O11, O20), the checksum and the
frame's layout (O23, O24), ParseFrame (O25, O26, O27), and a frame looped back (O47). -/

namespace Sys2Proof.Machine

/-! ### Commands and arrivals -/

/-- Settles O11: code 3 is neither ENCODE's nor DECODE's. -/
theorem reservedCommandChangesNothing : Obligations.ReservedCommandChangesNothing :=
  fun s => congrArg Host.Outcome.next (takeCommand_none s (by decide) (by decide))

theorem execFrame_short {d : List Byte} (t : Byte) (s : State) (h : d.length ≤ Config.maxData) :
    execFrame t d s = .next { s with rxq := s.rxq ++ frameBytes t d } :=
  (if_pos h).trans (arrive_eq _ s)

theorem execFrame_long {d : List Byte} (t : Byte) (s : State) (h : Config.maxData < d.length) :
    execFrame t d s = .refused (.badAccess .frameWrongSize) :=
  if_neg (Nat.not_le.mpr h)

/-- Settles O20: the row is an arrival of `frameBytes`. -/
theorem frameArrivesOnTheQueue : Obligations.FrameArrivesOnTheQueue :=
  fun s t _ => ⟨execFrame_short t s, execFrame_long t s⟩

/-! ### Table words of FRAME.SET -/

theorem lowBytes_succ (k m : Nat) (b : Byte) : lowBytes (k + 1) (m * 256 + b.toNat) = b :: lowBytes k m := by
  have hlow : BitVec.ofNat 8 (m * 256 + b.toNat) = b := by
    apply BitVec.eq_of_toNat_eq
    rw [BitVec.toNat_ofNat]; omega
  have hhigh : (m * 256 + b.toNat) / 256 = m := by omega
  rw [lowBytes, hlow, hhigh]

/-- The bytes of a FRAME.SET word, the last first: the operands, then the seven before them, the checksum 0 (R180). -/
theorem lowBytes_setFrameWord (uu ll ff vv : Byte) :
    lowBytes 11 (0x8109040002018300000000 + uu.toNat * 2 ^ 24 + ll.toNat * 2 ^ 16 + ff.toNat * 2 ^ 8 + vv.toNat)
      = [vv, ff, ll, uu, 0x83, 0x01, 0x02, 0x00, 0x04, 0x09, 0x81] := by
  have hhorner : 0x8109040002018300000000 + uu.toNat * 2 ^ 24 + ll.toNat * 2 ^ 16 + ff.toNat * 2 ^ 8 + vv.toNat
      = (((0x81090400020183 * 256 + uu.toNat) * 256 + ll.toNat) * 256 + ff.toNat) * 256 + vv.toNat := by omega
  rw [hhorner, lowBytes_succ, lowBytes_succ, lowBytes_succ, lowBytes_succ]
  rfl

/-- Byte 6 is the fixed 0x83, so the word is read in the table's order; its checksum byte is 0 and is filled in. -/
theorem setFrameWord_eq {w : Nat} {uu ll ff vv : Byte}
    (h : lowBytes 11 w = [vv, ff, ll, uu, 0x83, 0x01, 0x02, 0x00, 0x04, 0x09, 0x81]) :
    setFrameWord w = frameBytes Config.typeSet (setData uu ll ff vv) := by
  rw [setFrameWord, h]; rfl

/-- Settles O6: the word gives the line the row encodes to, and that line decodes to the row. -/
theorem setFrameTableWordDecodes : Obligations.SetFrameTableWordDecodes := by
  intro uu ll ff vv
  have hline := setFrameWord_eq (lowBytes_setFrameWord uu ll ff vv)
  have hdecode : decodeLine (selSet :: frameBytes Config.typeSet (setData uu ll ff vv)) = .ok (.frameSet uu ll ff vv) :=
    Laws.RoundTrip.frameSet uu ll ff vv rfl
  rw [decodeTableWord, tableLine, if_neg (by decide), if_pos rfl, hline, hdecode]

/-! ### The checksum -/

theorem sum8_toNat (s : List Byte) : (sum8 s).toNat = (s.map BitVec.toNat).sum % 256 := by
  induction s with
  | nil => rfl
  | cons b s ih => rw [sum8_cons, BitVec.toNat_add, ih, List.map_cons, List.sum_cons, Nat.add_mod_mod]

theorem sum8_perm {s s' : List Byte} (h : s.Perm s') : sum8 s = sum8 s' := by
  apply BitVec.eq_of_toNat_eq
  rw [sum8_toNat, sum8_toNat, (h.map BitVec.toNat).sum_eq]

/-- Settles O23: the fold's recursion, its value as a natural number, and the order of a sum. -/
theorem checksumIsTheSumModulo256 : Obligations.ChecksumIsTheSumModulo256 :=
  ⟨sum8_nil, fun s b => by rw [sum8_snoc, BitVec.toNat_add], sum8_toNat, fun _ _ => sum8_perm⟩

/-- Changing one byte changes the sum by the difference. -/
theorem sum8_set {s : List Byte} {j : Nat} (v : Byte) (h : j < s.length) : sum8 (s.set j v) + s[j] = sum8 s + v := by
  induction s generalizing j with
  | nil => exact absurd h (Nat.not_lt_zero j)
  | cons b s ih =>
    cases j with
    | zero =>
      rw [List.set_cons_zero, List.getElem_cons_zero, sum8_cons, sum8_cons]
      ac_rfl
    | succ j =>
      rw [List.set_cons_succ, List.getElem_cons_succ, sum8_cons, sum8_cons, BitVec.add_assoc, BitVec.add_assoc,
        ih (Nat.lt_of_succ_lt_succ h)]

/-- The sum sees every change of a single byte (R95 (b)). -/
theorem sum8_set_ne {s : List Byte} {j : Nat} {v : Byte} (h : j < s.length) (hv : v ≠ s[j]) :
    sum8 (s.set j v) ≠ sum8 s := by
  intro heq
  have hsum := sum8_set v h
  rw [heq] at hsum
  exact hv (BitVec.add_right_inj _ |>.mp hsum).symm

/-! ### The frame's layout -/

/-- Settles O24: the header's four bytes are written out in `frameBytes`, and the data follow. -/
theorem frameLayout : Obligations.FrameLayout := by
  intro t d hd
  refine ⟨frameBytes_length t d, rfl, congrArg some (lenByte_toNat hd), rfl, rfl, fun i _ => ?_⟩
  rw [Nat.add_comm]; rfl

/-! ### ParseFrame, test by test -/

theorem parseFrame_short_header {s : List Byte} (h : s.length < 2) : parseFrame s = (.fail .shortRead, s.length) :=
  if_pos h

theorem parseFrame_badMagic {m : Byte} (l : Byte) (r : List Byte) (h : m ≠ Config.magic) :
    parseFrame (m :: l :: r) = (.fail .badMagic, 2) := by
  rw [parseFrame, if_neg (by simp)]
  exact if_pos h

theorem parseFrame_badLength {l : Byte} (r : List Byte) (h : lenLegal l.toNat = false) :
    parseFrame (Config.magic :: l :: r) = (.fail .badLength, 2) := by
  simp [parseFrame, h]

theorem parseFrame_short_body {l : Byte} {r : List Byte} (hl : lenLegal l.toNat = true) (h : r.length < l.toNat) :
    parseFrame (Config.magic :: l :: r) = (.fail .shortRead, 2 + r.length) := by
  have hsize : (Config.magic :: l :: r).length = 2 + r.length := Nat.add_comm _ 2
  rw [parseFrame, hsize, if_neg (Nat.not_lt.mpr (Nat.le_add_right 2 _))]
  simp [hl, h]

/-- Settles O27: one lemma per test, and `parseFrame_whole` for a body that is all there. -/
theorem parseFrameTestsInOrder : Obligations.ParseFrameTestsInOrder := by
  intro m l r
  refine ⟨parseFrame_short_header (by decide), parseFrame_short_header (Nat.lt_succ_self 1), parseFrame_badMagic l r,
    ?badLength, ?shortBody, ?whole⟩
  case badLength =>
    rintro rfl hl
    refine parseFrame_badLength r ?_
    rcases hl with rfl | rfl | rfl <;> decide
  case shortBody =>
    rintro rfl h2 h254 hr
    exact parseFrame_short_body ((lenLegal_iff _).mpr ⟨h2, h254⟩) hr
  case whole =>
    rintro hm t c d rest hd h254 rfl
    have hwhole := parseFrame_whole m l t c d rest hm ((lenLegal_iff _).mpr ⟨by omega, h254⟩) hd
    exact ⟨fun hsum => hwhole.trans (if_pos hsum), fun hsum => hwhole.trans (if_neg (not_not.mpr hsum))⟩

/-! ### Frames read back -/

/-- A stream laid out as a frame, whatever its type tag and checksum byte, is decided by the checksum. -/
theorem parseFrame_layout {d : List Byte} (t c : Byte) (r : List Byte) (h : d.length ≤ Config.maxData) :
    parseFrame ([Config.magic, lenByte d.length, t, c] ++ d ++ r)
      = if sum8 d ≠ c then (.fail .checksumMismatch, d.length + 4) else (.ok t d, d.length + 4) := by
  have hused : 2 + (lenByte d.length).toNat = d.length + 4 := by
    rw [lenByte_toNat h]; exact Nat.add_comm 2 _
  rw [parseFrame_whole _ _ t c d r rfl (lenLegal_lenByte h) (lenByte_toNat h).symm, hused]

theorem parseFrame_frameBytes_append {d : List Byte} (t : Byte) (r : List Byte) (h : d.length ≤ Config.maxData) :
    parseFrame (frameBytes t d ++ r) = (.ok t d, d.length + 4) :=
  (parseFrame_layout t (sum8 d) r h).trans (if_neg (not_not.mpr rfl))

theorem parseFrame_frameBytes {d : List Byte} (t : Byte) (h : d.length ≤ Config.maxData) :
    parseFrame (frameBytes t d) = (.ok t d, d.length + 4) := by
  simpa using parseFrame_frameBytes_append t [] h

/-- A frame's layout with a checksum byte that does not fit its data. -/
theorem parseFrame_wrong_sum {d : List Byte} {c : Byte} (t : Byte) (h : d.length ≤ Config.maxData)
    (hc : sum8 d ≠ c) :
    parseFrame ([Config.magic, lenByte d.length, t, c] ++ d) = (.fail .checksumMismatch, d.length + 4) := by
  simpa [hc] using parseFrame_layout t c [] h

/-- Settles O25: frames parse back, so equal frames have equal payloads, and a replaced type tag is that of another
frame of the same data. -/
theorem framesParseBackAndDelimitThemselves : Obligations.FramesParseBackAndDelimitThemselves := by
  refine ⟨fun t d r hd => parseFrame_frameBytes_append t r hd, fun t t' d d' hd hd' heq => ?_, fun t t' d hd => ?_⟩
  · have hparse := (parseFrame_frameBytes t hd).symm.trans (heq ▸ parseFrame_frameBytes t' hd')
    exact Parsed.ok.inj (congrArg Prod.fst hparse)
  · exact parseFrame_frameBytes t' hd

theorem xor_twoPow_ne (b : Byte) {i : Nat} (h : i < 8) : b ^^^ BitVec.twoPow 8 i ≠ b := by
  intro heq
  have hbit := congrArg (·.getLsbD i) heq
  simp [h] at hbit

/-- Settles O26: a changed checksum byte no longer is the sum, and a changed data byte changes the sum. -/
theorem roundTripAndSingleBitErrors : Obligations.RoundTripAndSingleBitErrors := by
  intro t d hd
  refine ⟨parseFrame_frameBytes t hd, fun k i h3 hk hi => ?_⟩
  rcases Nat.eq_or_lt_of_le h3 with rfl | h4
  · exact parseFrame_wrong_sum t hd (xor_twoPow_ne (sum8 d) hi).symm
  · obtain ⟨j, rfl⟩ := Nat.exists_eq_add_of_le' h4
    have hj : j < d.length := by omega
    have hbyte : (frameBytes t d).getD (j + 4) 0 = d[j] := List.getD_eq_getElem d 0 hj
    have hsum : sum8 (d.set j (d[j] ^^^ BitVec.twoPow 8 i)) ≠ sum8 d := sum8_set_ne hj (xor_twoPow_ne _ hi)
    rw [hbyte]
    have hparse := parseFrame_wrong_sum t (by rwa [List.length_set]) hsum
    rwa [List.length_set] at hparse

/-! ### A frame looped back -/

/-- From RX_HDR the codec's three steps deliver a frame that is all the queue holds (R133 to R138). -/
theorem run_rxHdr_frame {s : State} {t : Byte} {d : List Byte} (hp : s.phase = .rxHdr) (he : s.rxErr = false)
    (hd : d.length ≤ Config.maxData) (hq : s.rxq = frameBytes t d) :
    ∃ u, Sys2Proof.core.run 3 (withAgenda [.codec, .codec, .codec] s) = .next u ∧
      DecodedAs s.settleMs s.txw (frameBytes t d) (.ok t d, d.length + 4) u := by
  have hlegal := lenLegal_lenByte hd
  have hheader : codecStep s = .next
      { afterRxHdr Config.magic (lenByte d.length) (t :: sum8 d :: d) s with phase := .rxBody } := by
    rw [codecStep_rxHdr hp, stepRxHdr_pair he hq, if_neg (not_not.mpr rfl), hlegal]; rfl
  have hbody : bodyOp s.rxErr (lenByte d.length).toNat (t :: sum8 d :: d) = (.ok t d, d.length + 2) := by
    rw [he, lenByte_toNat hd]
    exact (bodyOp_whole (List.take_of_length_le le_rfl) rfl).trans (if_neg (not_not.mpr rfl))
  obtain ⟨u, hrun, hdec⟩ := run_rxBody
    (s := { afterRxHdr Config.magic (lenByte d.length) (t :: sum8 d :: d) s with phase := .rxBody }) rfl
    (congrArg BitVec.toNat (fbByte_afterRxHdr_length _ _ (t :: sum8 d :: d) s)) hlegal
  have hframe := (hbody ▸ hdec).behind_header Config.magic (lenByte d.length)
  exact ⟨u, (run_codec hheader).trans hrun, Nat.add_comm 2 (d.length + 2) ▸ hframe⟩

/-- A DECODE with a whole frame alone in the queue, the outside silent, delivers it (R130, R144). -/
theorem run_decode_frame {s : State} {t : Byte} {d : List Byte} (hb : s.busy = false) (he : s.rxErr = false)
    (hd : d.length ≤ Config.maxData) (hq : s.rxq = frameBytes t d) :
    ∃ u, Sys2Proof.core.run (2 + s.settleMs.toNat + 4)
        (withAgenda ([.host (encodeLine .decode), .codec] ++ List.replicate s.settleMs.toNat .tick ++
          [.codec, .codec, .codec, .codec]) s) = .next u ∧
      DecodedAs s.settleMs s.txw (frameBytes t d) (.ok t d, d.length + 4) u := by
  have hne : s.rxq ≠ [] := hq ▸ List.cons_ne_nil _ _
  obtain ⟨u, hrun, hdec⟩ := run_rxHdr_frame
    (s := { s with busy := true, done := false, phase := .rxHdr, tmr := 0 }) rfl he hd hq
  refine ⟨u, ?_, hdec⟩
  rw [run_decode_settle hb he hne, run_codec (codecStep_settled rfl rfl)]
  exact hrun

/-- What ENCODE sends when the transport accepts all is the whole frame (R110). -/
theorem encodeOp_all (t : Byte) {d : List Byte} (h : d.length ≤ Config.maxData) :
    (encodeOp t d (Config.frameOverhead + d.length)).2 = frameBytes t d := by
  rw [encodeOp_short t _ h]
  exact List.take_of_length_le (frameBytes_length t d).le

/-- Settles O47: ENCODE adds the frame of its operands to TXW, and `run_decode_frame` delivers that frame. -/
theorem loopBackRoundTrip : Obligations.LoopBackRoundTrip := by
  intro s hb he hq hall hdlen
  obtain ⟨k, t, hencode, -, hk, -, htxw, -, hbusy, -, -, -, hsettle, hrxq, hrxErr, -⟩ :=
    encodeRealisesTheOperation s hb
  have hlen : (fbSlice s 4 s.dlen.toNat).length = s.dlen.toNat := fbSlice_length ..
  have hmax : (fbSlice s 4 s.dlen.toNat).length ≤ Config.maxData := hlen.symm ▸ hdlen
  have hsent : t.txw.drop s.txw.length = frameBytes s.typ (fbSlice s 4 s.dlen.toNat) := by
    rw [htxw, List.drop_left, ← encodeOp_all s.typ hmax, hlen, hk hall]
  have hqueue : t.rxq ++ frameBytes s.typ (fbSlice s 4 s.dlen.toNat) = frameBytes s.typ (fbSlice s 4 s.dlen.toNat) := by
    rw [hrxq, hq, List.nil_append]
  obtain ⟨u, hdecode, hdec⟩ := run_decode_frame
    (s := { t with rxq := t.rxq ++ frameBytes s.typ (fbSlice s 4 s.dlen.toNat) }) hbusy (hrxErr.trans he) hmax hqueue
  obtain ⟨htyp, hulen, hdata⟩ := hdec.payload _ _ rfl
  rw [hlen] at hulen hdata
  refine ⟨t, u, hencode, ?_, hdec.result, hdec.done, hdec.busy, htyp, BitVec.eq_of_toNat_eq hulen, hdata, ?_⟩
  · rw [hsent, show 3 + s.settleMs.toNat + 4 = 2 + s.settleMs.toNat + 4 + 1 by omega, ← hsettle]
    exact run_rx.trans hdecode
  · rw [hdec.rxq, List.drop_eq_nil_of_le (by rw [frameBytes_length]; exact (Nat.add_comm 4 _).le)]

end Sys2Proof.Machine
end

section
/-! PROOFS of the ENCODE family: what TX_BUILD writes (O41), and that ENCODE's steps have no part in the receive side
(O43). -/

namespace Sys2Proof.Machine

/-! ### TX_BUILD -/

theorem codecStep_txBuild {s : State} (h : s.phase = .txBuild) : codecStep s = stepTxBuild s := by
  simp only [codecStep, h]

/-- The header TX_BUILD leaves is that of the frame of the operands (R80, R112). -/
theorem fbByte_afterTxBuild_header (s : State) :
    fbByte (afterTxBuild s) 0 = Config.magic ∧ fbByte (afterTxBuild s) 1 = lenByte s.dlen.toNat ∧
    fbByte (afterTxBuild s) 2 = s.typ ∧
    fbByte (afterTxBuild s) 3 = sum8 (fbSlice s Config.frameOverhead s.dlen.toNat) := by
  have himage := fbSlice_afterTxBuild s
  rw [fbSlice_image, frameBytes, fbSlice_length] at himage
  obtain ⟨hheader, -⟩ := List.append_inj himage rfl
  simpa only [List.cons.injEq, and_true] using hheader

/-- TX_BUILD changes PHASE, SUM and FB, and nothing else (R112). -/
theorem afterTxBuild_frame (s : State) :
    { afterTxBuild s with phase := s.phase, sum := s.sum, fb := s.fb } = s := by
  simp only [afterTxBuild, buildHeader, fbSet]

/-- Settles O41: a DLEN above 252 ends by `finish`, which names no operand and no byte of FB; otherwise the step leaves
`afterTxBuild`, which has the frame's header and the window as it was. -/
theorem buildStepWritesTheHeader : Obligations.BuildStepWritesTheHeader := by
  intro s hp
  rw [codecStep_txBuild hp]
  refine ⟨fun hlong => ?_, fun hshort => ?_⟩
  · exact ⟨_, stepTxBuild_long hlong, rfl, rfl, rfl, rfl, fun _ => rfl, rfl, rfl, rfl, rfl, rfl, rfl⟩
  · obtain ⟨hmagic, hlen, htyp, hsum⟩ := fbByte_afterTxBuild_header s
    have hlenNat : (fbByte (afterTxBuild s) 1).toNat = s.dlen.toNat + 2 := by rw [hlen, lenByte_toNat hshort]
    exact ⟨afterTxBuild s, stepTxBuild_short hshort, rfl, hmagic, hlenNat, htyp, hsum, hsum.symm,
      fun _ h4 => fbByte_afterTxBuild s h4, afterTxBuild_frame s⟩

/-! ### ENCODE and the receive side -/

/-- The state with another receive side: the queue `q` and the level `e` (R34). -/
def withReceiveSide (q : List Byte) (e : Bool) (s : State) : State :=
  { s with rxq := q, rxErr := e }

theorem memRead_withReceiveSide (q : List Byte) (e : Bool) (s : State) :
    memRead (withReceiveSide q e s) = memRead s := rfl

theorem stepTxBuild_withReceiveSide {s t : State} (q : List Byte) (e : Bool) (h : stepTxBuild s = .next t) :
    stepTxBuild (withReceiveSide q e s) = .next (withReceiveSide q e t) := by
  rcases Nat.lt_or_ge Config.maxData s.dlen.toNat with hl | hl
  · rw [stepTxBuild_long hl] at h
    cases h; exact stepTxBuild_long (s := withReceiveSide q e s) hl
  · rw [stepTxBuild_short hl] at h
    cases h; exact stepTxBuild_short (s := withReceiveSide q e s) hl

theorem stepTxSend_withReceiveSide {s t : State} (q : List Byte) (e : Bool) (h : stepTxSend s = .next t) :
    stepTxSend (withReceiveSide q e s) = .next (withReceiveSide q e t) := by
  rw [stepTxSend] at h
  rw [stepTxSend, memRead_withReceiveSide, show (withReceiveSide q e s).dlen = s.dlen from rfl]
  cases hr : memRead s 0 (Config.frameOverhead + s.dlen.toNat) with
  | none => rw [hr] at h; cases h
  | some f => rw [hr] at h; cases h; rfl

theorem codecStep_withReceiveSide {s t : State} (q : List Byte) (e : Bool)
    (hp : s.phase = .txBuild ∨ s.phase = .txSend) (h : codecStep s = .next t) :
    codecStep (withReceiveSide q e s) = .next (withReceiveSide q e t) := by
  rcases hp with hp | hp
  · rw [codecStep_txBuild hp] at h
    exact (codecStep_txBuild (s := withReceiveSide q e s) hp).trans (stepTxBuild_withReceiveSide q e h)
  · rw [codecStep_txSend hp] at h
    exact (codecStep_txSend (s := withReceiveSide q e s) hp).trans (stepTxSend_withReceiveSide q e h)

/-- Settles O43: the step commutes with every replacement of the receive side; replacing it by itself shows that the step
leaves it. -/
theorem encodeIgnoresTheReceiveSide : Obligations.EncodeIgnoresTheReceiveSide := by
  intro s t q e hp h
  have hself : t = withReceiveSide s.rxq s.rxErr t :=
    Host.Outcome.next.inj (h.symm.trans (codecStep_withReceiveSide s.rxq s.rxErr hp h))
  exact ⟨codecStep_withReceiveSide q e hp h, by rw [hself]; rfl, by rw [hself]; rfl⟩

end Sys2Proof.Machine
end

section
/-! PROOFS of the DECODE family: the operation of level 2 (O28, O29), the wait (O30, O31), the delay (O34, O35), the
header, the body and the check (O36, O37, O38), and how a DECODE fails (O39, O40). -/

namespace Sys2Proof.Machine

/-! ### The operation -/

/-- With two header bytes there, ParseFrame is the two tests of the header and then `bodyOp` (R89). -/
theorem parseFrame_pair (m l : Byte) (r : List Byte) :
    parseFrame (m :: l :: r) =
      if m ≠ Config.magic then (.fail .badMagic, 2)
      else if !lenLegal l.toNat then (.fail .badLength, 2)
      else ((bodyOp false l.toNat r).1, 2 + (bodyOp false l.toNat r).2) := by
  split_ifs with hm hl
  · exact parseFrame_badMagic l r hm
  · rw [not_not.mp hm]; exact parseFrame_badLength r (by simpa using hl)
  · have hlegal : lenLegal l.toNat = true := by simpa using hl
    obtain rfl := not_not.mp hm
    rcases Nat.lt_or_ge r.length l.toNat with hr | hr
    · rw [bodyOp_short hr]; exact parseFrame_short_body hlegal hr
    · obtain ⟨ty, c, d, hbody, hd⟩ := exists_take_body ((lenLegal_iff _).mp hlegal).1 hr
      have hqueue : Config.magic :: l :: r = [Config.magic, l, ty, c] ++ d ++ r.drop l.toNat := by
        conv_lhs => rw [← List.take_append_drop l.toNat r, hbody]
        rfl
      rw [hqueue, parseFrame_whole _ l ty c d _ rfl hlegal hd, bodyOp_whole hbody hd]
      split_ifs <;> rfl

/-- Settles O28: DECODE and ParseFrame make the same two tests of the header and go on with the same `bodyOp`. -/
theorem decodeIsParseFrame : Obligations.DecodeIsParseFrame := by
  have hpair : ∀ (m l : Byte) (q a : List Byte),
      decodeOp false false (m :: l :: q) a = parseFrame (m :: l :: (q ++ a)) :=
    fun m l q a => (decodeOp_pair false m l q a).trans (parseFrame_pair m l (q ++ a)).symm
  intro q a
  match q with
  | [] | [_] => exact ⟨rfl, fun h => absurd h (by simp)⟩
  | m :: l :: q => exact ⟨by simpa using hpair m l q [], fun _ => hpair m l q a⟩

/-- The ways a body read and its check can come out (R136 to R138). -/
inductive BodyOutcome (e : Bool) (l : Nat) (r : List Byte) : Parsed × Nat → Prop where
  | ioError (he : e = true) : BodyOutcome e l r (.fail .ioError, 0)
  | shortRead (hr : r.length < l) : BodyOutcome e l r (.fail .shortRead, r.length)
  | mismatch (hr : l ≤ r.length) : BodyOutcome e l r (.fail .checksumMismatch, l)
  | ok (hr : l ≤ r.length) (ty : Byte) (d : List Byte) (hd : d.length + 2 = l) : BodyOutcome e l r (.ok ty d, l)

theorem bodyOp_outcome (e : Bool) {l : Nat} (r : List Byte) (h2 : 2 ≤ l) : BodyOutcome e l r (bodyOp e l r) := by
  cases e with
  | true => exact .ioError rfl
  | false =>
    rcases Nat.lt_or_ge r.length l with hr | hr
    · rw [bodyOp_short hr]; exact .shortRead hr
    · obtain ⟨ty, c, d, hbody, hd⟩ := exists_take_body h2 hr
      rw [bodyOp_whole hbody hd]
      split_ifs
      · exact .mismatch hr
      · exact .ok hr ty d hd

/-- Settles O29: the header's outcomes use what was there of two bytes, and `bodyOp` adds what it takes behind them. -/
theorem decodeConsumption : Obligations.DecodeConsumption := by
  intro e e' q a p n h
  cases e with
  | true => cases h; exact ⟨Nat.zero_le _, Nat.zero_le _, .inl ⟨rfl, rfl⟩⟩
  | false =>
    match q with
    | [] | [_] => cases h; exact ⟨by simp, by simp, .inr ⟨rfl, by simp⟩⟩
    | m :: l :: q =>
      have hthere : (m :: l :: q ++ a).length = 2 + (q ++ a).length := Nat.add_comm _ 2
      rw [decodeOp_pair] at h
      rw [hthere]
      split_ifs at h with hm hl
      · cases h; exact ⟨Nat.le_add_right _ _, by decide, rfl⟩
      · cases h; exact ⟨Nat.le_add_right _ _, by decide, rfl⟩
      · obtain ⟨h2, h254⟩ := (lenLegal_iff l.toNat).mp (by simpa using hl)
        have hbody := bodyOp_outcome e' (q ++ a) h2
        generalize bodyOp e' l.toNat (q ++ a) = o at h hbody
        cases h
        cases hbody with
        | ioError he => exact ⟨Nat.le_add_right _ _, by decide, .inr ⟨rfl, he, rfl⟩⟩
        | shortRead hr => exact ⟨le_rfl, by omega, .inl ⟨rfl, by simp, Nat.add_lt_add_left hr 2⟩⟩
        | mismatch hr => exact ⟨Nat.add_le_add_left hr 2, by omega, rfl⟩
        | ok hr ty d hd => exact ⟨Nat.add_le_add_left hr 2, by omega, rfl, hd, by omega⟩

/-! ### RX_WAIT -/

theorem codecStep_rxWait {s : State} (h : s.phase = .rxWait) : codecStep s = stepRxWait s := by
  simp only [codecStep, h]

theorem stepRxWait_error {s : State} (he : s.rxErr = true) : stepRxWait s = .next (failDecode .ioError s) :=
  if_pos he

/-- With neither an error nor a byte the wait has no step (R131). -/
theorem stepRxWait_empty {s : State} (he : s.rxErr = false) (hq : s.rxq = []) : stepRxWait s = .next s := by
  simp [stepRxWait, he, rxReadable, hq]

/-- Settles O30: one lemma per case of the wait. -/
theorem waitEndsOnErrorOrByte : Obligations.WaitEndsOnErrorOrByte := by
  intro s hp
  rw [codecStep_rxWait hp]
  exact ⟨stepRxWait_empty, stepRxWait_readable,
    fun he => ⟨_, stepRxWait_error he, rfl, rfl, rfl, rfl, rfl, rfl, rfl⟩⟩

/-- A state that its step answers with itself stays for ever. -/
theorem run_of_step_self {s : State} (h : step s = .next s) (k : Nat) : Sys2Proof.core.run k s = .next s := by
  induction k with
  | zero => exact run_zero s
  | succ k ih => exact (run_next h).trans ih

/-- Where no tick is counted the quiet step is the codec's (log entry 4). -/
theorem quietStep_codec {s : State} (h : s.phase ≠ .rxSettle ∨ s.tmr = 0) : quietStep s = codecStep s :=
  if_neg fun ⟨hp, ht⟩ => h.elim (· hp) ht

/-- Settles O31: the quiet step of such a state is the codec's, which has none. -/
theorem waitCanLastForEver : Obligations.WaitCanLastForEver := by
  intro s k ha hp hq he
  refine run_of_step_self ?_ k
  rw [step_nil ha, quietStep_codec (.inl (by rw [hp]; nofun)), codecStep_rxWait hp, stepRxWait_empty he hq]

/-! ### RX_SETTLE -/

theorem codecStep_settling {s : State} (hp : s.phase = .rxSettle) (ht : s.tmr ≠ 0) : codecStep s = .next s := by
  simp only [codecStep, hp]; exact if_neg ht

theorem word_pred_toNat {w : Word} (h : w ≠ 0) : (w - 1).toNat + 1 = w.toNat := by
  bv_omega

/-- No access of the host while BUSY touches PHASE or TMR (R23, R39). -/
theorem Executed.keeps_delay {i : Instr} {s t : State} (h : Executed i s t) (hb : s.busy = true) :
    t.phase = s.phase ∧ t.tmr = s.tmr := by
  cases h with
  | started _ hi | loaded _ _ _ _ hi => exact absurd (hi.symm.trans hb) (by decide)
  | unchanged | settle | type | dlen | window | read | arrived => exact ⟨rfl, rfl⟩

/-- The codec's own step in RX_SETTLE: none, or into RX_HDR once TMR is 0 (R132, R140). -/
theorem Sequenced.delay {s t : State} (h : Sequenced s t) (hs : s.phase = .rxSettle) :
    t = s ∨ (s.tmr = 0 ∧ t = { s with phase := .rxHdr }) := by
  cases h with
  | unchanged => exact .inl rfl
  | settled _ ht => exact .inr ⟨ht, rfl⟩
  | failed _ _ _ _ _ _ hp => simp [hs] at hp
  | waited hp | header hp | body hp | delivered hp | tooLong hp | built hp | sent hp => simp [hs] at hp

/-- Settles O34: in RX_SETTLE the block is BUSY, so the host's accesses leave the delay; the codec leaves it only with
TMR 0, a counted tick takes one off, and of the other turns only reset touches it. -/
theorem settleDelayIsNeverCutShort : Obligations.SettleDelayIsNeverCutShort := by
  refine ⟨fun s t h hp hstep => ?_, fun s hp => ⟨codecStep_settling hp, codecStep_settled hp⟩⟩
  have hbusy : s.busy = true := h.flags.1.mpr (by rw [hp]; nofun)
  cases step_stepped hstep with
  | access _ _ _ _ _ _ he =>
    obtain ⟨hphase, htmr⟩ := he.keeps_delay hbusy
    exact .inl ⟨hphase.trans hp, htmr⟩
  | codec _ _ _ hs =>
    obtain rfl | ⟨ht, rfl⟩ := hs.delay hp
    · exact .inl ⟨hp, rfl⟩
    · exact .inr (.inr (.inl ⟨rfl, ht⟩))
  | counted rest ha _ ht =>
    exact .inr (.inl ⟨hp, word_pred_toNat ht, ha.imp (fun e => by rw [e]; rfl) And.left⟩)
  | reset rest ha => exact .inr (.inr (.inr ⟨rfl, by rw [ha]; rfl⟩))
  | wire | arrived | level | uncounted | accept => exact .inl ⟨hp, rfl⟩

/-- With the outside silent TMR counts in RX_SETTLE (R32, R140; log entry 4). -/
theorem step_settling {s : State} (ha : s.agenda = []) (hp : s.phase = .rxSettle) (ht : s.tmr ≠ 0) :
    step s = .next { s with tmr := s.tmr - 1 } := by
  rw [step_nil ha, quietStep, if_pos ⟨hp, ht⟩, clockTick_counts hp ht]

/-- The steps of the delay, as many as TMR holds or fewer, count TMR down and do nothing else. -/
theorem run_settling {s : State} {k : Nat} (ha : s.agenda = []) (hp : s.phase = .rxSettle) (hk : k ≤ s.tmr.toNat) :
    Sys2Proof.core.run k s = .next { s with tmr := s.tmr - BitVec.ofNat 16 k } := by
  induction k generalizing s with
  | zero => simp [run_zero]
  | succ k ih =>
    have ht : s.tmr ≠ 0 := by rintro e; simp [e] at hk
    have hpred := word_pred_toNat ht
    rw [run_next (step_settling ha hp ht), ih (s := { s with tmr := s.tmr - 1 }) ha hp (by simp only; omega)]
    have hcount : s.tmr - 1 - BitVec.ofNat 16 k = s.tmr - BitVec.ofNat 16 (k + 1) := by bv_omega
    simp only [hcount]

/-- With the outside silent the codec leaves the delay once TMR is 0 (R132, R140; log entry 4). -/
theorem step_settled {s : State} (ha : s.agenda = []) (hp : s.phase = .rxSettle) (ht : s.tmr = 0) :
    step s = .next { s with phase := .rxHdr } := by
  rw [step_nil ha, quietStep_codec (.inr ht), codecStep_settled hp ht]

/-- Settles O35: `run_settling` to TMR 0, and then `step_settled`. -/
theorem settleDelayEndsAfterItsTicks : Obligations.SettleDelayEndsAfterItsTicks := by
  intro s ha hp
  refine ⟨fun k hk => run_settling ha hp hk, ?_⟩
  have hticks := run_settling ha hp le_rfl
  rw [show s.tmr - BitVec.ofNat 16 s.tmr.toNat = 0 by simp] at hticks
  exact (run_add hticks).trans (run_next (step_settled (s := { s with tmr := 0 }) ha hp rfl))

/-! ### RX_HDR -/

/-- The header read writes FB[0] and FB[1] alone (R133). -/
theorem fbByte_afterRxHdr_other (m l : Byte) (q : List Byte) (s : State) {a : Nat} (h : 2 ≤ a) :
    fbByte (afterRxHdr m l q s) a = fbByte s a :=
  (fbByte_insertAll (s := s) 0 a [m, l]).trans (if_neg fun hlt => absurd hlt.2 (Nat.not_lt.mpr h))

/-- Settles O36: too short a header is one read; the two bytes of a whole one are tested in their order. -/
theorem headerStepTestsInOrder : Obligations.HeaderStepTestsInOrder := by
  intro s hp he
  rw [codecStep_rxHdr hp]
  match hq : s.rxq with
  | [] | [_] =>
    have hlt : s.rxq.length < 2 := by simp [hq]
    refine ⟨_, stepRxHdr_short he hlt, by rw [failDecode_rxq, ← hq]; rfl, rfl, rfl, rfl,
      fun _ => ⟨rfl, rfl, rfl, rfl⟩, ?_⟩
    simp
  | m :: l :: q =>
    have hlong : ¬ (m :: l :: q).length < 2 := by simp
    refine ⟨_, stepRxHdr_pair he hq, ?_⟩
    simp only [List.getD_cons_zero, List.getD_cons_succ]
    split_ifs with hm hl
    · exact ⟨rfl, rfl, rfl, rfl, fun h => absurd h hlong, fun _ _ => ⟨rfl, rfl, rfl, rfl⟩,
        fun _ h => absurd h hm, fun _ h => absurd h hm⟩
    · have hillegal : ¬ (2 ≤ l.toNat ∧ l.toNat ≤ 254) := fun h => by simp [(lenLegal_iff _).mpr h] at hl
      exact ⟨rfl, rfl, rfl, rfl, fun h => absurd h hlong, fun _ h => absurd h hm,
        fun _ _ _ => ⟨rfl, rfl, rfl, rfl⟩, fun _ _ h2 h254 => absurd ⟨h2, h254⟩ hillegal⟩
    · obtain ⟨h2, h254⟩ := (lenLegal_iff l.toNat).mp (by simpa using hl)
      exact ⟨rfl, rfl, rfl, rfl, fun h => absurd h hlong, fun _ h => absurd h hm, fun _ _ h => by omega,
        fun _ _ _ _ => ⟨rfl, fbByte_afterRxHdr_magic m l q s, fbByte_afterRxHdr_length m l q s,
          fun _ => fbByte_afterRxHdr_other m l q s, rfl, rfl, rfl⟩⟩

/-! ### RX_BODY -/

/-- The body read writes FB[2 .. 2 + LEN) alone (R136). -/
theorem fbByte_afterRxBody_other {s : State} {l a : Nat} (hq : l ≤ s.rxq.length) (h : a < 2 ∨ 2 + l ≤ a) :
    fbByte (afterRxBody l s) a = fbByte s a := by
  refine (fbByte_insertAll (s := s) 2 a (s.rxq.take l)).trans (if_neg ?_)
  rw [List.length_take_of_le hq]; omega

/-- Settles O37: the invariant bounds LEN, and a body read is either short or `afterRxBody`. -/
theorem bodyStepTakesTheDeclaredLength : Obligations.BodyStepTakesTheDeclaredLength := by
  intro s h hp he
  have hle := h.len_le (.inl hp)
  rw [codecStep_rxBody hp]
  rcases Nat.lt_or_ge s.rxq.length (fbByte s 1).toNat with hq | hq
  · exact ⟨_, stepRxBody_short he rfl hle hq, rfl, rfl, rfl, fun _ => ⟨rfl, rfl, rfl, rfl⟩,
      fun hge => absurd hq (Nat.not_lt.mpr hge)⟩
  · exact ⟨_, stepRxBody_whole he rfl hle hq, rfl, rfl, rfl, fun hlt => absurd hlt (Nat.not_lt.mpr hq),
      fun _ => ⟨rfl, fbSlice_afterRxBody hq, fun _ => fbByte_afterRxBody_other hq, rfl⟩⟩

/-! ### RX_CHECK -/

theorem codecStep_rxCheck {s : State} (h : s.phase = .rxCheck) : codecStep s = stepRxCheck s := by
  simp only [codecStep, h]

/-- After a delivered DECODE a place outside the data reads as the free value of the generation begun there (R38). -/
theorem fbByte_deliver_other (t : Byte) (n : Nat) (s : State) {a : Nat} (h : a < 4 ∨ 4 + n ≤ a) :
    fbByte (deliver t n s) a = Config.freeFb s.draws a :=
  (fbByte_of_none (deliver_find_none t n s h)).trans (congrArg (Config.freeFb · a) (ite_self s.draws))

/-- Delivering keeps the data received, every byte of them specified (R138). -/
theorem fbSlice_deliver (t : Byte) {n : Nat} {s : State} (h : Specified s 4 n) :
    fbSlice (deliver t n s) 4 n = fbSlice s 4 n :=
  fbSlice_eq fun i hi => fbByte_deliver (by omega) (h i hi)

/-- Settles O38: the invariant bounds LEN, has the body specified and TMR at 0; the sum decides between `failDecode` and
`deliver`. -/
theorem checkStepDeliversOrRejects : Obligations.CheckStepDeliversOrRejects := by
  intro s h hp
  obtain ⟨-, -, hlegal⟩ := h.header (.inr hp)
  obtain ⟨h2, h254⟩ := (lenLegal_iff _).mp hlegal
  obtain ⟨n, hn⟩ := Nat.exists_eq_add_of_le' h2
  have hmax : n ≤ Config.maxData := by simp only [Config.maxData]; omega
  have hspec : Specified s 4 n := fun i hi => by
    have hbyte := h.body hp (2 + i) (by omega)
    rwa [← Nat.add_assoc] at hbyte
  rw [codecStep_rxCheck hp, stepRxCheck_eq (n := n) (by rw [hn]; rfl) hmax, hn, Nat.add_sub_cancel]
  split_ifs with hsum
  · exact ⟨_, rfl, rfl, rfl, rfl, rfl, rfl, rfl, fun _ => rfl, fun heq => absurd heq hsum⟩
  · have hdlen : (BitVec.ofNat 8 n).toNat = n := Nat.mod_eq_of_lt (Nat.lt_of_le_of_lt hmax (by decide))
    refine ⟨_, rfl, rfl, rfl, rfl, rfl, rfl, rfl, fun hne => absurd hne hsum, fun _ => ?_⟩
    rw [deliver_dlen, hdlen]
    exact ⟨rfl, rfl, rfl, hmax, h.timer (.inr (.inr hp)),
      fbSlice_deliver (s := { s with sum := _ }) (fbByte s 2) hspec,
      fun a ha => ⟨deliver_find_none _ _ _ ha, fbByte_deliver_other _ _ _ ha⟩, rfl, rfl⟩

/-! ### How a DECODE fails -/

/-- After a failed DECODE every byte of FB reads as the free value of one new generation (R38, R141). -/
theorem fbByte_failDecode (k : Kind) (s : State) (a : Nat) : fbByte (failDecode k s) a = Config.freeFb s.draws a :=
  (fbByte_of_none (failDecode_find k s a)).trans (congrArg (Config.freeFb · a) (ite_self s.draws))

/-- A codec step of a receive phase that ends with a result other than Ok is a `failDecode` (R141, R199). -/
theorem Sequenced.failDecode_of_result {s t : State} (h : Sequenced s t) (hidle : s.phase ≠ .idle)
    (hbuild : s.phase ≠ .txBuild) (hsend : s.phase ≠ .txSend) (ht : t.phase = .idle) (hr : t.result ≠ 0) :
    ∃ k q fb sum, t = failDecode k { s with rxq := q, fb := fb, sum := sum } := by
  cases h with
  | failed k n fb sum => exact ⟨k, _, fb, sum, rfl⟩
  | unchanged => exact absurd ht hidle
  | waited | settled | header | body => exact absurd ht nofun
  | delivered => exact absurd rfl hr
  | tooLong hp | built hp => exact absurd hp hbuild
  | sent hp => exact absurd hp hsend

/-- Settles O39: such a step is a `failDecode`, which keeps nothing of the frame. -/
theorem failedDecodeKeepsNothing : Obligations.FailedDecodeKeepsNothing := by
  intro s t hidle hbuild hsend hstep ht hr
  obtain ⟨k, q, fb, sum, rfl⟩ := (codecStep_sequenced hstep).failDecode_of_result hidle hbuild hsend ht hr
  exact ⟨failDecode_find k _, fbByte_failDecode k _, rfl, rfl, rfl, rfl, rfl, rfl, rfl, rfl⟩

/-- The error test comes first in each of the three phases that have one (R142). -/
theorem codecStep_rxErr {s : State} (he : s.rxErr = true)
    (hp : s.phase = .rxWait ∨ s.phase = .rxHdr ∨ s.phase = .rxBody) :
    codecStep s = .next (failDecode .ioError s) := by
  rcases hp with hp | hp | hp
  · exact (codecStep_rxWait hp).trans (stepRxWait_error he)
  · exact (codecStep_rxHdr hp).trans (if_pos he)
  · exact (codecStep_rxBody hp).trans (if_pos he)

theorem stepRxCheck_withRxErr {s t : State} (e : Bool) (h : stepRxCheck s = .next t) :
    stepRxCheck { s with rxErr := e } = .next { t with rxErr := e } := by
  have hbyte : fbByte { s with rxErr := e } = fbByte s := fbByte_congr rfl rfl rfl
  have hread : memRead { s with rxErr := e } = memRead s := rfl
  rw [stepRxCheck] at h ⊢
  rw [hbyte, hread]
  revert h
  cases memRead s Config.frameOverhead ((fbByte s 1).toNat - Config.lenOverhead) with
  | none => exact nofun
  | some d =>
    intro h
    simp only at h ⊢
    split_ifs at h with hsum
    · cases h; exact if_pos hsum
    · cases h; exact if_neg hsum

/-- Settles O40: in the three phases `codecStep_rxErr`; the delay's step turns on TMR alone, the check's on FB alone. -/
theorem transportErrorEndsDecode : Obligations.TransportErrorEndsDecode := by
  refine ⟨fun s he hp => ⟨_, codecStep_rxErr he hp, rfl, rfl, rfl, rfl, rfl, rfl, rfl, rfl⟩,
    fun s t e hp h => ?_⟩
  rcases hp with hp | hp
  · by_cases ht : s.tmr = 0
    · rw [codecStep_settled hp ht] at h
      cases h; exact codecStep_settled (s := { s with rxErr := e }) hp ht
    · rw [codecStep_settling hp ht] at h
      cases h; exact codecStep_settling (s := { s with rxErr := e }) hp ht
  · rw [codecStep_rxCheck hp] at h
    exact (codecStep_rxCheck (s := { s with rxErr := e }) hp).trans (stepRxCheck_withRxErr e h)

end Sys2Proof.Machine
end

section
/-! PROOFS of the configuration and status family: NOP (O10), the host's writes to the registers and the window
(O13, O14), and its reads of STATUS and, when not BUSY, of the other registers (O16, O17). -/

namespace Sys2Proof.Machine

/-! ### NOP and the host's writes -/

/-- Settles O10: code 0 is neither ENCODE's nor DECODE's. -/
theorem nopChangesNothing : Obligations.NopChangesNothing :=
  fun s => congrArg Host.Outcome.next (takeCommand_none s (by decide) (by decide))

/-- Settles O13: each of the three writes is one `hostWrite`. -/
theorem registerWritesUnlessBusy : Obligations.RegisterWritesUnlessBusy := by
  refine fun s w v => ⟨fun hb => ?_, fun hb => ?_⟩
  · have written : ∀ t : State, hostWrite t s = t := fun _ => hostWrite_idle hb
    exact ⟨congrArg _ (written _), congrArg _ (written _), congrArg _ (written _)⟩
  · have dropped : ∀ t : State, hostWrite t s = s := fun _ => hostWrite_busy hb
    exact ⟨congrArg _ (dropped _), congrArg _ (dropped _), congrArg _ (dropped _)⟩

theorem execWrd_window {i : Nat} (b : Byte) (s : State) (h : i < Config.maxData) :
    execWrd i b s = .next (hostWrite (fbSet (dbufIndex i) b s) s) :=
  if_pos h

/-- Settles O14: inside the window WRD is the `hostWrite` of one `fbSet`. -/
theorem windowWriteChangesOneByte : Obligations.WindowWriteChangesOneByte := by
  intro s i b hi
  have hexec := execWrd_window b s (Nat.lt_succ_of_le hi)
  refine ⟨fun hb => ⟨fbSet (dbufIndex i) b s, ?_, ?_, fun a ha => ?_, rfl⟩, fun hb => ?_⟩
  · exact hexec.trans (congrArg _ (hostWrite_idle hb))
  · exact (fbByte_fbSet s _ _ b).trans (if_pos rfl)
  · exact (fbByte_fbSet s _ a b).trans (if_neg ha)
  · exact hexec.trans (congrArg _ (hostWrite_busy hb))

/-! ### The host's reads -/

/-- The flags' weights are distinct powers of two, so that each flag has a bit of its own. -/
theorem flags_eq_ofBoolListLE (b d r e : Bool) :
    BitVec.ofNat 8 (flag e 8 + flag r 4 + flag d 2 + flag b 1)
      = BitVec.ofBoolListLE [b, d, r, e, false, false, false, false] := by
  revert b d r e; decide

theorem statusWord_getLsbD (s : State) (i : Nat) :
    (statusWord s).getLsbD i = [s.busy, s.done, rxReadable s, s.rxErr, false, false, false, false].getD i false :=
  (congrArg (BitVec.getLsbD · i) (flags_eq_ofBoolListLE ..)).trans BitVec.getLsbD_ofBoolListLE

/-- Bits 7:4 of STATUS read 0 (R161). -/
theorem statusWord_high (s : State) : (statusWord s).extractLsb' 4 4 = 0 := by
  refine BitVec.eq_of_getLsbD_eq fun j hj => ?_
  rw [BitVec.getLsbD_extractLsb', statusWord_getLsbD]
  interval_cases j <;> rfl

theorem rxReadable_eq_decide (s : State) : rxReadable s = decide (1 ≤ s.rxq.length) := by
  rw [rxReadable]; cases s.rxq <;> simp

/-- Settles O16: the read is a `hostRead`, and each bit is read off the status word. -/
theorem statusReadReturnsTheFlags : Obligations.StatusReadReturnsTheFlags := by
  intro s
  have hbit := statusWord_getLsbD s
  exact ⟨rfl, hbit 0, hbit 1, (hbit 2).trans (rxReadable_eq_decide s), hbit 3, statusWord_high s⟩

theorem hostReadIdle_of_idle (v free : Word) {s : State} (h : s.busy = false) :
    hostReadIdle v free s = { s with rdata := v } :=
  if_neg (Bool.eq_false_iff.mp h)

/-- Settles O17: each of the four reads is a `hostReadIdle`, RDD's inside the window. -/
theorem readsWhenIdleReturnTheRegister : Obligations.ReadsWhenIdleReturnTheRegister := by
  intro s i hb hi
  have read : ∀ v free, hostReadIdle v free s = { s with rdata := v } := fun v free => hostReadIdle_of_idle v free hb
  exact ⟨congrArg _ (read _ _), congrArg _ (read _ _), congrArg _ (read _ _),
    (execRdd_window s (Nat.lt_succ_of_le hi)).trans (congrArg _ (read _ _))⟩

end Sys2Proof.Machine
end

section
/-! PROOFS of the client payload family: FRAME.SET loads the set payload and starts ENCODE (O21), which sends the set
frame (O22). -/

namespace Sys2Proof.Machine

/-! ### Loading the set payload -/

/-- The state with the set payload as ENCODE's operands: its type, its length and its bytes in the window (R180). -/
def withSetPayload (uu ll ff vv : Byte) (s : State) : State :=
  { s with
    typ := Config.typeSet
    dlen := 7
    fb := Memory.insertAll s.fb Config.frameOverhead (setData uu ll ff vv) }

theorem fbSlice_withSetPayload (uu ll ff vv : Byte) (s : State) :
    fbSlice (withSetPayload uu ll ff vv s) 4 7 = setData uu ll ff vv :=
  fbSlice_insertAll { s with typ := Config.typeSet, dlen := 7 } Config.frameOverhead (setData uu ll ff vv)

theorem fbByte_withSetPayload_other (uu ll ff vv : Byte) (s : State) {a : Nat} (h : a < 4 ∨ 11 ≤ a) :
    fbByte (withSetPayload uu ll ff vv s) a = fbByte s a :=
  (fbByte_insertAll (s := { s with typ := Config.typeSet, dlen := 7 }) Config.frameOverhead a (setData uu ll ff vv)).trans
    (if_neg (show ¬ (4 ≤ a ∧ a < 4 + 7) by omega))

/-- While BUSY each of FRAME.SET's writes and its command are dropped (R39, R164). -/
theorem execFrameSet_busy (uu ll ff vv : Byte) {s : State} (h : s.busy = true) :
    execFrameSet uu ll ff vv s = .next s := by
  rw [execFrameSet, writeType, hostWrite_busy h, writeDlen, hostWrite_busy h, writeDbufs_busy _ _ h, takeCommand_busy _ h]

/-- Settles O21: not BUSY, FRAME.SET is ENCODE's start on `withSetPayload`; BUSY, every part of it is dropped. -/
theorem setFrameLoadsAndStartsEncode : Obligations.SetFrameLoadsAndStartsEncode := by
  refine fun s uu ll ff vv => ⟨fun hb => ?_, execFrameSet_busy uu ll ff vv⟩
  exact ⟨{ withSetPayload uu ll ff vv s with busy := true, done := false, phase := .txBuild },
    execFrameSet_idle uu ll ff vv hb, fbSlice_withSetPayload uu ll ff vv s,
    fun _ ha => fbByte_withSetPayload_other uu ll ff vv s ha, rfl⟩

/-! ### Sending the set frame -/

/-- The set frame byte by byte (R88, R180): the payload's three fixed bytes add up to 0x86. -/
theorem frameBytes_setData (uu ll ff vv : Byte) :
    frameBytes Config.typeSet (setData uu ll ff vv)
      = [0x81, 0x09, 0x04, 0x86 + uu + ll + ff + vv, 0x02, 0x01, 0x83, uu, ll, ff, vv] :=
  rfl

theorem encodeOp_all_ok (t : Byte) {d : List Byte} (h : d.length ≤ Config.maxData) :
    (encodeOp t d (Config.frameOverhead + d.length)).1 = .ok := by
  rw [encodeOp_short t _ h]
  exact if_neg (lt_irrefl _)

theorem takeTurn_frameSet (uu ll ff vv : Byte) {s : State} (h : s.busy = false) :
    takeTurn (.host (encodeLine (.frameSet uu ll ff vv))) s
      = .next { withSetPayload uu ll ff vv s with busy := true, done := false, phase := .txBuild } :=
  (hostTurn_ok s (Laws.RoundTrip.frameSet uu ll ff vv rfl)).trans (execFrameSet_idle uu ll ff vv h)

/-- A run from FRAME.SET is the run from ENCODE with the set payload loaded (R180). -/
theorem run_frameSet (uu ll ff vv : Byte) {k : Nat} {rest : List Turn} {s : State} (h : s.busy = false) :
    Sys2Proof.core.run (k + 1) (withAgenda (.host (encodeLine (.frameSet uu ll ff vv)) :: rest) s)
      = Sys2Proof.core.run (k + 1)
          (withAgenda (.host (encodeLine .encode) :: rest) (withSetPayload uu ll ff vv s)) :=
  (run_cons (takeTurn_frameSet uu ll ff vv h)).trans
    (run_cons (takeTurn_encode (s := withSetPayload uu ll ff vv s) h)).symm

/-- Settles O22: the run is an ENCODE of the set payload, whose eleven bytes the transport takes whole. -/
theorem setFrameSendsItsElevenBytes : Obligations.SetFrameSendsItsElevenBytes := by
  intro s uu ll ff vv hb hall
  obtain ⟨k, t, hrun, -, hk, hresult, htxw, hphase, hbusy, hdone, -, -, -, hrxq, -⟩ :=
    encodeRealisesTheOperation (withSetPayload uu ll ff vv s) hb
  have hslice : fbSlice (withSetPayload uu ll ff vv s) 4 (withSetPayload uu ll ff vv s).dlen.toNat = setData uu ll ff vv :=
    fbSlice_withSetPayload uu ll ff vv s
  have hlen : (setData uu ll ff vv).length ≤ Config.maxData := show 7 ≤ 252 by decide
  rw [hslice, hk hall] at hresult htxw
  refine ⟨t, (run_frameSet uu ll ff vv hb).trans hrun, ?_, ?_, hdone, hbusy, hphase, hrxq⟩
  · exact htxw.trans (congrArg (s.txw ++ ·) ((encodeOp_all Config.typeSet hlen).trans (frameBytes_setData uu ll ff vv)))
  · exact hresult.trans (congrArg Kind.code (encodeOp_all_ok Config.typeSet hlen))

end Sys2Proof.Machine
end
